-- ==== Sys2Proof/Word.lean ====
section
/-! DEFINITION. The 64-bit word of the X86lite core and its plainest arithmetic (00_scope.md rule R7). -/

namespace Sys2Proof

/-- Every register, operand value, address and result (R7): 64 bits, read as a signed integer through `BitVec.toInt`. -/
abbrev Word := BitVec 64

/-- The 8-bit content of a `Raw` memory cell (R31). -/
abbrev Byte := BitVec 8

/-- The 176-bit token that carries one instruction (R61). -/
abbrev Token := BitVec 176

/-- R7, `wrap64(n)`: the signed 64-bit value congruent to `n` modulo `2^64`. -/
def wrap64 (n : Int) : Word := BitVec.ofInt 64 n

/-- R7, `MIN = -2^63`. -/
def minWord : Word := 0x8000000000000000#64

/-- R7, `MAX = 2^63 - 1`. -/
def maxWord : Word := 0x7FFFFFFFFFFFFFFF#64

/-- R7, `sign(v)`: whether `v < 0`; zero has the sign of a non-negative number. -/
def sign (v : Word) : Bool := decide (v.toInt < 0)

end Sys2Proof
end

