-- ==== Sys2Proof/Syntax.lean ====
section
/-! DEFINITION. The abstract syntax of the X86lite core: registers, conditions, operands, the 33 instructions of
spec/opcode_table.json, and the symbolic byte a memory cell holds. -/

namespace Sys2Proof

/-- The 17 registers, in the order of their normative numbers 0..16 (R10). -/
inductive Reg where
  | rax | rbx | rcx | rdx | rsi | rdi | rbp | rsp
  | r08 | r09 | r10 | r11 | r12 | r13 | r14 | r15
  | rip
  deriving DecidableEq, Repr

/-- The six condition codes (R63). -/
inductive Cond where
  | eq | neq | lt | le | gt | ge
  deriving DecidableEq, Repr

/-- The three indirect operand forms (R64): memory at an absolute address, at the address in a register, at a register
plus a displacement. -/
inductive Indirect where
  | ind1 (a : Word)
  | ind2 (r : Reg)
  | ind3 (d : Word) (r : Reg)
  deriving DecidableEq, Repr

/-- An operand (R64, R90): a literal constant, a register, or one of the three indirect forms. -/
inductive Operand where
  | imm (n : Word)
  | reg (r : Reg)
  | mem (m : Indirect)
  deriving DecidableEq, Repr

/-- One constructor per row of spec/opcode_table.json (R62, R63). A two-operand instruction takes its operands in the
order `src`, `dst` (R66). -/
inductive Instr where
  | movq (src dst : Operand)
  | addq (src dst : Operand)
  | subq (src dst : Operand)
  | imulq (src dst : Operand)
  | xorq (src dst : Operand)
  | orq (src dst : Operand)
  | andq (src dst : Operand)
  | shlq (amt dst : Operand)
  | sarq (amt dst : Operand)
  | shrq (amt dst : Operand)
  | incq (dst : Operand)
  | decq (dst : Operand)
  | notq (dst : Operand)
  | negq (dst : Operand)
  | leaq (src dst : Operand)
  | cmpq (src dst : Operand)
  | pushq (src : Operand)
  | popq (dst : Operand)
  | callq (src : Operand)
  | retq
  | jmp (src : Operand)
  | jEq (src : Operand)
  | jNeq (src : Operand)
  | jLt (src : Operand)
  | jLe (src : Operand)
  | jGt (src : Operand)
  | jGe (src : Operand)
  | setEq (dst : Operand)
  | setNeq (dst : Operand)
  | setLt (dst : Operand)
  | setLe (dst : Operand)
  | setGt (dst : Operand)
  | setGe (dst : Operand)
  deriving DecidableEq, Repr

/-- A memory cell (R31): the head of an instruction slot with the token of its instruction (R32), one of a slot's other
seven cells, or a plain data byte. -/
inductive SymByte where
  | insHead (t : Token)
  | insTail
  | raw (b : Byte)
  deriving DecidableEq, Repr, Inhabited

end Sys2Proof
end

