-- ==== Sys2Proof/Config.lean ====
section
/-! DEFINITION. What an implementation fixes (R5), the decided choices of R6, and the one free value, `memFill`. -/

namespace Sys2Proof.Config

/-- R5 `MEM_BOT`: the lowest valid address. -/
def memBot : Nat := 0x400000

/-- R5 `MEM_SIZE`: the number of memory cells. -/
def memSize : Nat := 0x10000

/-- R5 `MEM_TOP = MEM_BOT + MEM_SIZE`: one past the highest valid address. -/
def memTop : Nat := memBot + memSize

/-- R5 `INS_SIZE`: the cells one instruction slot occupies. -/
def insSize : Nat := 8

/-- R5 `QUAD`: the bytes every data access moves. -/
def quad : Nat := 8

/-- R5 `EXIT_ADDR`: the halt sentinel, a value of `Rip` outside the window. -/
def exitAddr : Word := 0xFDEAD#64

/-- R6 `SHIFT_FLAGS_USE_MASKED_AMOUNT`, decided `true` (92_eei_decisions.md D7): the flag rules of a shift test the
count after masking. -/
def shiftFlagsUseMaskedAmount : Bool := true

/-- R6, R22 `MEM_FILL`: the reset content of the cell with this index, which the spec leaves OPEN
(92_eei_decisions.md D17). A free value: no proof can see it. DESIGN CHOICE, notes/assumptions/1.md. -/
opaque memFill : Nat → SymByte

end Sys2Proof.Config
end

