-- ==== Sys2Proof/WellFormed.lean ====
section
/-! DEFINITION. The causes of a malformed instruction (R192) and the operand forms each opcode accepts (R67). -/

namespace Sys2Proof

/-- The seven causes of the fault `Malformed` (R192). -/
inductive Malformed where
  | notInsHead
  | badToken
  | unresolvedLabel
  | arity
  | leaqSrcNotInd
  | badShiftAmount
  | storeToImm
  deriving DecidableEq, Repr

/-- Whether the operand is `Imm`. -/
def Operand.isImm : Operand → Bool
  | .imm _ => true
  | .reg _ => false
  | .mem _ => false

/-- Whether the operand is `Ind1`, `Ind2` or `Ind3`. -/
def Operand.isInd : Operand → Bool
  | .imm _ => false
  | .reg _ => false
  | .mem _ => true

/-- Whether the operand may be a shift count: `Imm`, or exactly `Reg(Rcx)` (R140). -/
def Operand.isCount : Operand → Bool
  | .imm _ => true
  | .reg r => r == .rcx
  | .mem _ => false

/-- R67: the operand forms of the instruction are ones its opcode accepts. -/
def Instr.wellFormed : Instr → Bool
  | .movq _ dst => !dst.isImm
  | .addq _ dst => !dst.isImm
  | .subq _ dst => !dst.isImm
  | .imulq _ dst => !dst.isImm
  | .xorq _ dst => !dst.isImm
  | .orq _ dst => !dst.isImm
  | .andq _ dst => !dst.isImm
  | .shlq amt dst => amt.isCount && !dst.isImm
  | .sarq amt dst => amt.isCount && !dst.isImm
  | .shrq amt dst => amt.isCount && !dst.isImm
  | .incq dst => !dst.isImm
  | .decq dst => !dst.isImm
  | .notq dst => !dst.isImm
  | .negq dst => !dst.isImm
  | .leaq src dst => src.isInd && !dst.isImm
  | .cmpq _ _ => true
  | .pushq _ => true
  | .popq dst => !dst.isImm
  | .callq _ => true
  | .retq => true
  | .jmp _ => true
  | .jEq _ => true
  | .jNeq _ => true
  | .jLt _ => true
  | .jLe _ => true
  | .jGt _ => true
  | .jGe _ => true
  | .setEq dst => !dst.isImm
  | .setNeq dst => !dst.isImm
  | .setLt dst => !dst.isImm
  | .setLe dst => !dst.isImm
  | .setGt dst => !dst.isImm
  | .setGe dst => !dst.isImm

end Sys2Proof
end

