-- ==== Sys2Proof/Machine/State.lean ====
section
/-! DEFINITION. The machine state (R9): 17 registers, 3 flags, the memory cells and the run status; the two faults; the
state after reset. -/

namespace Sys2Proof.Machine

/-- Why the machine stops with a fault (R190). Both constructors are raised through `raise` (Machine/Ops.lean); no state
survives a fault (R197). -/
inductive Fault where
  /-- R191. Raised by a fetch (`index`), a quadword read (`memRead`) or a quadword write (`memWrite`) of an address
  outside the window; carries that address. Safe: the spec names the fault. -/
  | segfault (a : Word)
  /-- R192. Raised by a fetch of a cell that is no instruction head, by `decode`, and by the shape check; carries the
  cause. Safe: the spec names the fault. -/
  | malformed (c : Malformed)
  deriving DecidableEq, Repr

/-- Why the model gives an instruction no meaning. -/
inductive Refusal where
  /-- Raised by an arm of `exec` for an instruction that has no meaning yet; no arm raises it now. Safe. -/
  | notModelled (mnemonic : String)
  deriving DecidableEq, Repr

/-- The register file (R10): `Rip`, the program counter, is the seventeenth of its registers. -/
structure Regs where
  rax : Word
  rbx : Word
  rcx : Word
  rdx : Word
  rsi : Word
  rdi : Word
  rbp : Word
  rsp : Word
  r08 : Word
  r09 : Word
  r10 : Word
  r11 : Word
  r12 : Word
  r13 : Word
  r14 : Word
  r15 : Word
  rip : Word
  deriving DecidableEq, Repr

/-- The three flags (R15): signed overflow, sign, zero. -/
structure Flags where
  of : Bool
  sf : Bool
  zf : Bool
  deriving DecidableEq, Repr

/-- The run status (R20). -/
inductive RunStatus where
  | running
  | halted
  | faulted (f : Fault)
  deriving DecidableEq, Repr

/-- The memory cells that the image or a store has written, as pairs of address and cell, addresses strictly rising
(`Memory.wf`). An address not listed reads as `Config.memFill` (notes/assumptions/1.md, 2.md). -/
abbrev Memory := List (Nat × SymByte)

/-- The machine state (R9, R18, R19): nothing else is state. -/
structure State where
  regs : Regs
  flags : Flags
  mem : Memory
  status : RunStatus
  deriving DecidableEq, Repr

/-- R22: the state after reset with an empty image. `Rsp = MEM_TOP - 8`, the flags false, the other registers 0, the
status running, no cell written. `Rip` is the image's `entry`, which the spec gives no value: `MEM_BOT` here
(DESIGN CHOICE, notes/assumptions/4.md). -/
def State.reset : State where
  regs :=
    { rax := 0, rbx := 0, rcx := 0, rdx := 0, rsi := 0, rdi := 0, rbp := 0, rsp := 0x40FFF8#64
      r08 := 0, r09 := 0, r10 := 0, r11 := 0, r12 := 0, r13 := 0, r14 := 0, r15 := 0, rip := 0x400000#64 }
  flags := { of := false, sf := false, zf := false }
  mem := []
  status := .running

end Sys2Proof.Machine
end

