-- ==== Sys2Proof/Machine/Flags.lean ====
section
/-! DEFINITION. The arithmetic and logic results, the flag engine (R110 to R123, R140 to R143) and the condition
evaluator (R160). -/

namespace Sys2Proof.Machine

/-- The operations the flag engine is parametrized by (R123). `Incq` is `add` and `Decq` is `sub`, both with source 1
(R118, R119); `Cmpq` is `sub` (R122). -/
inductive AluOp where
  | add | sub | imul | and | or | xor | not | neg | shl | sar | shr
  deriving DecidableEq, Repr

/-- R140: the effective shift count, the low six bits of the amount. -/
def shiftCount (amt : Word) : Nat := (amt.extractLsb' 0 6).toNat

/-- The amount the flag rules of a shift test: the masked count (R140), as long as the parameter of R6 is `true`. -/
def shiftFlagCount (amt : Word) : Nat :=
  if Config.shiftFlagsUseMaskedAmount then shiftCount amt else amt.toNat

/-- The exact result of a signed operation before it is narrowed (R111). -/
def exactProduct (d s : Word) : Int := d.toInt * s.toInt

/-- The result of an operation on the destination value `d` and the source value `s`; `not` and `neg` use `d` alone. -/
def aluResult (op : AluOp) (d s : Word) : Word :=
  match op with
  | .add => wrap64 (d.toInt + s.toInt)
  | .sub => wrap64 (d.toInt - s.toInt)
  | .imul => wrap64 (exactProduct d s)
  | .and => d &&& s
  | .or => d ||| s
  | .xor => d ^^^ s
  | .not => ~~~d
  | .neg => wrap64 (-d.toInt)
  | .shl => d <<< shiftCount s
  | .sar => d.sshiftRight (shiftCount s)
  | .shr => d >>> shiftCount s

/-- R110 `SetSZ(r)`. -/
def setSZ (r : Word) (fl : Flags) : Flags := { fl with sf := decide (r.toInt < 0), zf := decide (r = 0) }

/-- `OF` of an addition with result `r` (R112). -/
def addOverflow (d s r : Word) : Bool := (sign d == sign s) && (sign r != sign d)

/-- `OF` of a subtraction with result `r` (R113): a source of `MIN` sets it whatever the result. -/
def subOverflow (d s r : Word) : Bool := ((sign d != sign s) && (sign r != sign d)) || s == minWord

/-- `OF` of a multiplication (R114): the exact product does not fit in 64 bits. -/
def mulOverflow (d s : Word) : Bool :=
  decide (exactProduct d s < -2 ^ 63 ∨ exactProduct d s > 2 ^ 63 - 1)

/-- The flags of a shift with result `r` (R141 to R143): none written when the count is 0, `OF` only when it is 1. -/
def shiftFlags (s : Word) (r : Word) (overflow : Bool) (old : Flags) : Flags :=
  let c := shiftFlagCount s
  let fl := if c ≠ 0 then setSZ r old else old
  if c = 1 then { fl with of := overflow } else fl

/-- R123, the flag engine: the flags after an operation, a function of the operation, its two input values and the old
flags, of which it keeps those the operation does not write. -/
def flagEngine (op : AluOp) (d s : Word) (old : Flags) : Flags :=
  let r := aluResult op d s
  match op with
  | .add => setSZ r { old with of := addOverflow d s r }
  | .sub => setSZ r { old with of := subOverflow d s r }
  | .imul => { old with of := mulOverflow d s }
  | .and => setSZ r { old with of := false }
  | .or => setSZ r { old with of := false }
  | .xor => setSZ r { old with of := false }
  | .not => setSZ r { old with of := false }
  | .neg => setSZ r { old with of := d == minWord }
  | .shl => shiftFlags s r (d.getLsbD 63 != d.getLsbD 62) old
  | .sar => shiftFlags s r false old
  | .shr => shiftFlags s r (d.getLsbD 63) old

/-- R160 `Cond(cc)`. -/
def condHolds (cc : Cond) (fl : Flags) : Bool :=
  match cc with
  | .eq => fl.zf
  | .neq => !fl.zf
  | .lt => fl.sf != fl.of
  | .le => (fl.sf != fl.of) || fl.zf
  | .gt => (fl.sf == fl.of) && !fl.zf
  | .ge => fl.sf == fl.of

end Sys2Proof.Machine
end

