-- ==== Sys2Proof/Decode.lean ====
section
/-! DEFINITION. Decoding a 176-bit token (R61 to R69, R74), the shape check that follows it (R67), and the encoder
written from the same tables. -/

namespace Sys2Proof

/-! ## Fields of a token (R61) -/

/-- `OPC = T[7:0]`. -/
def Token.opc (t : Token) : Nat := (t.extractLsb' 0 8).toNat

/-- `CC = T[11:8]`. -/
def Token.cc (t : Token) : Nat := (t.extractLsb' 8 4).toNat

/-- `NOPS = T[15:12]`. -/
def Token.nops (t : Token) : Nat := (t.extractLsb' 12 4).toNat

/-- One 80-bit operand slot of a token: `KIND`, `REG`, `VAL`. -/
structure Slot where
  kind : BitVec 8
  reg : BitVec 8
  val : Word
  deriving DecidableEq, Repr

/-- The slot of operand `k`: operand 0 begins at bit 16, operand 1 at bit 96. -/
def Token.slot (t : Token) (k : Nat) : Slot where
  kind := t.extractLsb' (16 + 80 * k) 8
  reg := t.extractLsb' (24 + 80 * k) 8
  val := t.extractLsb' (32 + 80 * k) 64

/-- A slot whose three fields are zero: what an unused slot must be (R68). -/
def Slot.zero : Slot := ⟨0, 0, 0⟩

/-! ## Register numbers (R10) -/

/-- The normative number of a register. -/
def Reg.num : Reg → Nat
  | .rax => 0
  | .rbx => 1
  | .rcx => 2
  | .rdx => 3
  | .rsi => 4
  | .rdi => 5
  | .rbp => 6
  | .rsp => 7
  | .r08 => 8
  | .r09 => 9
  | .r10 => 10
  | .r11 => 11
  | .r12 => 12
  | .r13 => 13
  | .r14 => 14
  | .r15 => 15
  | .rip => 16

/-- The register with a number; 17..255 are illegal (R65). -/
def Reg.ofNum : Nat → Option Reg
  | 0 => some .rax
  | 1 => some .rbx
  | 2 => some .rcx
  | 3 => some .rdx
  | 4 => some .rsi
  | 5 => some .rdi
  | 6 => some .rbp
  | 7 => some .rsp
  | 8 => some .r08
  | 9 => some .r09
  | 10 => some .r10
  | 11 => some .r11
  | 12 => some .r12
  | 13 => some .r13
  | 14 => some .r14
  | 15 => some .r15
  | 16 => some .rip
  | _ => none

/-! ## Operand slots (R64, R68, R69) -/

/-- What an operand slot in use holds. -/
inductive SlotReading where
  | operand (o : Operand)
  | label
  | illegal
  deriving DecidableEq, Repr

/-- Reads a slot in use: a field the form does not use must be zero, a register number is 0..16, the kinds 5 to 7 carry
an unresolved label and the kinds from 8 on are reserved. -/
def Slot.read (sl : Slot) : SlotReading :=
  match sl.kind.toNat, Reg.ofNum sl.reg.toNat with
  | 0, _ => if sl.reg = 0 then .operand (.imm sl.val) else .illegal
  | 1, some r => if sl.val = 0 then .operand (.reg r) else .illegal
  | 2, _ => if sl.reg = 0 then .operand (.mem (.ind1 sl.val)) else .illegal
  | 3, some r => if sl.val = 0 then .operand (.mem (.ind2 r)) else .illegal
  | 4, some r => .operand (.mem (.ind3 sl.val r))
  | 5, _ => if sl.reg = 0 ∧ sl.val = 0 then .label else .illegal
  | 6, _ => if sl.reg = 0 ∧ sl.val = 0 then .label else .illegal
  | 7, some _ => if sl.val = 0 then .label else .illegal
  | _, _ => .illegal

/-! ## Opcodes (R62, R63) and arity (R66) -/

/-- `OPC` is 0..22, and `CC` is 0..5 for `J` and `Set` and 0 for every other opcode (R68). -/
def opcodeLegal (opc cc : Nat) : Bool :=
  if opc = 21 ∨ opc = 22 then decide (cc ≤ 5) else decide (opc ≤ 20 ∧ cc = 0)

/-- An instruction without operands. -/
def takeNone (i : Instr) : List Operand → Except Malformed Instr
  | [] => .ok i
  | _ => .error .arity

/-- An instruction with one operand. -/
def takeOne (f : Operand → Instr) : List Operand → Except Malformed Instr
  | [a] => .ok (f a)
  | _ => .error .arity

/-- An instruction with the operands `src`, `dst`. -/
def takeTwo (f : Operand → Operand → Instr) : List Operand → Except Malformed Instr
  | [a, b] => .ok (f a b)
  | _ => .error .arity

/-- The instruction of an opcode and condition number with these operands. -/
def build : (opc cc : Nat) → List Operand → Except Malformed Instr
  | 0, 0 => takeTwo .movq
  | 1, 0 => takeTwo .addq
  | 2, 0 => takeTwo .subq
  | 3, 0 => takeTwo .imulq
  | 4, 0 => takeTwo .xorq
  | 5, 0 => takeTwo .orq
  | 6, 0 => takeTwo .andq
  | 7, 0 => takeTwo .shlq
  | 8, 0 => takeTwo .sarq
  | 9, 0 => takeTwo .shrq
  | 10, 0 => takeOne .incq
  | 11, 0 => takeOne .decq
  | 12, 0 => takeOne .notq
  | 13, 0 => takeOne .negq
  | 14, 0 => takeTwo .leaq
  | 15, 0 => takeTwo .cmpq
  | 16, 0 => takeOne .pushq
  | 17, 0 => takeOne .popq
  | 18, 0 => takeOne .callq
  | 19, 0 => takeNone .retq
  | 20, 0 => takeOne .jmp
  | 21, 0 => takeOne .jEq
  | 21, 1 => takeOne .jNeq
  | 21, 2 => takeOne .jLt
  | 21, 3 => takeOne .jLe
  | 21, 4 => takeOne .jGt
  | 21, 5 => takeOne .jGe
  | 22, 0 => takeOne .setEq
  | 22, 1 => takeOne .setNeq
  | 22, 2 => takeOne .setLt
  | 22, 3 => takeOne .setLe
  | 22, 4 => takeOne .setGt
  | 22, 5 => takeOne .setGe
  | _, _ => fun _ => .error .badToken

/-! ## The decoder (R74) -/

/-- The operands of a token with `NOPS` operands; a reserved or ill-filled slot is reported before a label (R196). -/
def Token.operands (t : Token) : Except Malformed (List Operand) :=
  match t.nops with
  | 0 => if t.slot 0 = .zero ∧ t.slot 1 = .zero then .ok [] else .error .badToken
  | 1 =>
    if t.slot 1 = .zero then
      match (t.slot 0).read with
      | .operand a => .ok [a]
      | .label => .error .unresolvedLabel
      | .illegal => .error .badToken
    else .error .badToken
  | 2 =>
    match (t.slot 0).read, (t.slot 1).read with
    | .illegal, _ => .error .badToken
    | _, .illegal => .error .badToken
    | .operand a, .operand b => .ok [a, b]
    | _, _ => .error .unresolvedLabel
  | _ => .error .badToken

/-- R74 with R68, R69 and R66: the instruction of a token, or the cause for which it is malformed. Total. -/
def decode (t : Token) : Except Malformed Instr :=
  if opcodeLegal t.opc t.cc then
    match t.operands with
    | .ok ops => build t.opc t.cc ops
    | .error c => .error c
  else .error .badToken

/-! ## The shape check (R67) -/

/-- The check of an operand that is stored to. -/
def storeShape (dst : Operand) : Option Malformed :=
  if dst.isImm then some .storeToImm else none

/-- The check of a shift: its count first, then its destination (R196). -/
def shiftShape (amt dst : Operand) : Option Malformed :=
  if amt.isCount then storeShape dst else some .badShiftAmount

/-- The check of `Leaq`: its source first, then its destination (R196). -/
def leaqShape (src dst : Operand) : Option Malformed :=
  if src.isInd then storeShape dst else some .leaqSrcNotInd

/-- R67 in the order of R196: the cause for which the operand forms of an instruction are refused, if any. -/
def shapeFault : Instr → Option Malformed
  | .movq _ dst => storeShape dst
  | .addq _ dst => storeShape dst
  | .subq _ dst => storeShape dst
  | .imulq _ dst => storeShape dst
  | .xorq _ dst => storeShape dst
  | .orq _ dst => storeShape dst
  | .andq _ dst => storeShape dst
  | .shlq amt dst => shiftShape amt dst
  | .sarq amt dst => shiftShape amt dst
  | .shrq amt dst => shiftShape amt dst
  | .incq dst => storeShape dst
  | .decq dst => storeShape dst
  | .notq dst => storeShape dst
  | .negq dst => storeShape dst
  | .leaq src dst => leaqShape src dst
  | .cmpq _ _ => none
  | .pushq _ => none
  | .popq dst => storeShape dst
  | .callq _ => none
  | .retq => none
  | .jmp _ => none
  | .jEq _ => none
  | .jNeq _ => none
  | .jLt _ => none
  | .jLe _ => none
  | .jGt _ => none
  | .jGe _ => none
  | .setEq dst => storeShape dst
  | .setNeq dst => storeShape dst
  | .setLt dst => storeShape dst
  | .setLe dst => storeShape dst
  | .setGt dst => storeShape dst
  | .setGe dst => storeShape dst

/-! ## The encoder -/

/-- The slot of an operand (R64, R65); fields its form does not use are zero (R68). -/
def Operand.slot : Operand → Slot
  | .imm n => ⟨0, 0, n⟩
  | .reg r => ⟨1, BitVec.ofNat 8 r.num, 0⟩
  | .mem (.ind1 a) => ⟨2, 0, a⟩
  | .mem (.ind2 r) => ⟨3, BitVec.ofNat 8 r.num, 0⟩
  | .mem (.ind3 d r) => ⟨4, BitVec.ofNat 8 r.num, d⟩

/-- A field of a token, its least significant bit at bit `lo`. -/
def field (w : Nat) (x : BitVec w) (lo : Nat) : Token := x.setWidth 176 <<< lo

/-- The token with these fields, each at its place in the table of R61. -/
def assemble (opc : BitVec 8) (cc nops : BitVec 4) (s0 s1 : Slot) : Token :=
  field 8 opc 0 ||| field 4 cc 8 ||| field 4 nops 12
    ||| field 8 s0.kind 16 ||| field 8 s0.reg 24 ||| field 64 s0.val 32
    ||| field 8 s1.kind 96 ||| field 8 s1.reg 104 ||| field 64 s1.val 112

/-- A token without operands. -/
def assemble0 (opc : BitVec 8) (cc : BitVec 4) : Token := assemble opc cc 0 .zero .zero

/-- A token with one operand. -/
def assemble1 (opc : BitVec 8) (cc : BitVec 4) (a : Operand) : Token := assemble opc cc 1 a.slot .zero

/-- A token with two operands. -/
def assemble2 (opc : BitVec 8) (cc : BitVec 4) (a b : Operand) : Token := assemble opc cc 2 a.slot b.slot

/-- The token of an instruction (R61 to R65). -/
def encode : Instr → Token
  | .movq a b => assemble2 0 0 a b
  | .addq a b => assemble2 1 0 a b
  | .subq a b => assemble2 2 0 a b
  | .imulq a b => assemble2 3 0 a b
  | .xorq a b => assemble2 4 0 a b
  | .orq a b => assemble2 5 0 a b
  | .andq a b => assemble2 6 0 a b
  | .shlq a b => assemble2 7 0 a b
  | .sarq a b => assemble2 8 0 a b
  | .shrq a b => assemble2 9 0 a b
  | .incq a => assemble1 10 0 a
  | .decq a => assemble1 11 0 a
  | .notq a => assemble1 12 0 a
  | .negq a => assemble1 13 0 a
  | .leaq a b => assemble2 14 0 a b
  | .cmpq a b => assemble2 15 0 a b
  | .pushq a => assemble1 16 0 a
  | .popq a => assemble1 17 0 a
  | .callq a => assemble1 18 0 a
  | .retq => assemble0 19 0
  | .jmp a => assemble1 20 0 a
  | .jEq a => assemble1 21 0 a
  | .jNeq a => assemble1 21 1 a
  | .jLt a => assemble1 21 2 a
  | .jLe a => assemble1 21 3 a
  | .jGt a => assemble1 21 4 a
  | .jGe a => assemble1 21 5 a
  | .setEq a => assemble1 22 0 a
  | .setNeq a => assemble1 22 1 a
  | .setLt a => assemble1 22 2 a
  | .setLe a => assemble1 22 3 a
  | .setGt a => assemble1 22 4 a
  | .setGe a => assemble1 22 5 a

/-! ## The host's view of the decoder -/

/-- The token whose low `nbits` bits are those of `w` and whose other bits are 0. -/
def tokenOfWord (nbits w : Nat) : Token := BitVec.ofNat 176 (w % 2 ^ nbits)

/-- The instruction the decoder reads from an instruction word of the opcode table; `none` where it refuses. -/
def decodeTableWord (nbits w : Nat) : Option Instr := (decode (tokenOfWord nbits w)).toOption

end Sys2Proof
end

