-- ==== Sys2Proof/Machine/Ops.lean ====
section
/-! DEFINITION. The named operations over registers and memory that every meaning uses, instruction fetch, and what a
fault does. -/

namespace Sys2Proof.Machine

/-- What a step or a meaning answers. -/
abbrev Answer := Host.Outcome State Fault Refusal

/-! ## Registers (R10, R12) -/

/-- The content of a register. -/
def Regs.get (f : Regs) : Reg → Word
  | .rax => f.rax
  | .rbx => f.rbx
  | .rcx => f.rcx
  | .rdx => f.rdx
  | .rsi => f.rsi
  | .rdi => f.rdi
  | .rbp => f.rbp
  | .rsp => f.rsp
  | .r08 => f.r08
  | .r09 => f.r09
  | .r10 => f.r10
  | .r11 => f.r11
  | .r12 => f.r12
  | .r13 => f.r13
  | .r14 => f.r14
  | .r15 => f.r15
  | .rip => f.rip

/-- The register file with one register written, all 64 bits of it. -/
def Regs.set (f : Regs) (r : Reg) (v : Word) : Regs :=
  match r with
  | .rax => { f with rax := v }
  | .rbx => { f with rbx := v }
  | .rcx => { f with rcx := v }
  | .rdx => { f with rdx := v }
  | .rsi => { f with rsi := v }
  | .rdi => { f with rdi := v }
  | .rbp => { f with rbp := v }
  | .rsp => { f with rsp := v }
  | .r08 => { f with r08 := v }
  | .r09 => { f with r09 := v }
  | .r10 => { f with r10 := v }
  | .r11 => { f with r11 := v }
  | .r12 => { f with r12 := v }
  | .r13 => { f with r13 := v }
  | .r14 => { f with r14 := v }
  | .r15 => { f with r15 := v }
  | .rip => { f with rip := v }

/-- `x[r]` (R7). -/
def State.reg (s : State) (r : Reg) : Word := s.regs.get r

/-- `x[r] <- v` (R7). -/
def State.setReg (s : State) (r : Reg) (v : Word) : State := { s with regs := s.regs.set r v }

/-- The state with all three flags as given. -/
def State.setFlags (s : State) (fl : Flags) : State := { s with flags := fl }

/-- The state with this run status (R20). -/
def State.setStatus (s : State) (st : RunStatus) : State := { s with status := st }

/-- `a + INS_SIZE`, the address one instruction slot on (R13). -/
def nextSlot (a : Word) : Word := wrap64 (a.toInt + Config.insSize)

/-- The advance that ends a step whose instruction did not set `Rip` (R70 step 5): `x[Rip] <- ip + 8`. -/
def State.advance (s : State) (ip : Word) : State := s.setReg .rip (nextSlot ip)

/-! ## Memory cells -/

/-- The cell written at an address, if any was. -/
def Memory.find (m : Memory) (a : Nat) : Option SymByte :=
  match m with
  | [] => none
  | (b, c) :: rest => if a = b then some c else Memory.find rest a

/-- The memory with one cell written, addresses kept strictly rising. -/
def Memory.put (m : Memory) (a : Nat) (c : SymByte) : Memory :=
  match m with
  | [] => [(a, c)]
  | (b, d) :: rest =>
    if a < b then (a, c) :: (b, d) :: rest
    else if a = b then (a, c) :: rest
    else (b, d) :: Memory.put rest a c

/-- The memory with consecutive cells written from an address on. -/
def Memory.putAll (m : Memory) (a : Nat) : List SymByte → Memory
  | [] => m
  | c :: cs => Memory.putAll (m.put a c) (a + 1) cs

/-- Every listed address is at least `lo`, below `MEM_TOP`, and greater than the one before it. -/
def Memory.wfFrom (lo : Nat) : Memory → Bool
  | [] => true
  | (b, _) :: rest => decide (lo ≤ b ∧ b < Config.memTop) && Memory.wfFrom (b + 1) rest

/-- The canonical form of memory: addresses strictly rising and inside the window (R30). -/
def Memory.wf (m : Memory) : Bool := Memory.wfFrom Config.memBot m

/-- What an address of the window that nothing has written reads as: `MEM_FILL` of its cell index (R22). -/
def fillCell (a : Nat) : SymByte := Config.memFill (a - Config.memBot)

/-- The cell at an address (R31). -/
def State.cell (s : State) (a : Nat) : SymByte := (s.mem.find a).getD (fillCell a)

/-- The byte a data read takes from a cell; one that is not `Raw` reads as zero (R35). -/
def dataByte : SymByte → Byte
  | .raw b => b
  | .insHead _ => 0
  | .insTail => 0

/-! ## Addresses (R30, R33) -/

/-- R33 `Index(a)`: the index of the cell at an address of the window. -/
def index (a : Word) : Except Fault Nat :=
  if (Config.memBot : Int) ≤ a.toInt ∧ a.toInt < (Config.memTop : Int)
  then .ok (a.toInt - Config.memBot).toNat
  else .error (.segfault a)

/-- R36, R37: the eight addresses from `a` on are all in the window. -/
def quadInWindow (a : Word) : Bool :=
  decide ((Config.memBot : Int) ≤ a.toInt ∧ a.toInt ≤ (Config.memTop : Int) - Config.quad)

/-! ## Quadwords (R34 to R37) -/

/-- R34 `serialize_i64(v)`: eight `Raw` cells, least significant byte first. -/
def serialize (v : Word) : List SymByte :=
  (List.range Config.quad).map fun i => .raw (v.extractLsb' (8 * i) 8)

/-- R35 `deserialize_i64`: the cells' data bytes, the first the least significant. -/
def deserialize : List SymByte → Word
  | [] => 0
  | c :: cs => (deserialize cs <<< 8) ||| (dataByte c).setWidth 64

/-- The cells at `n` consecutive addresses from `a` on. -/
def State.cells (s : State) (a n : Nat) : List SymByte := (List.range n).map fun i => s.cell (a + i)

/-- R36 `MemRead(a, 8)`. -/
def memRead (s : State) (a : Word) : Except Fault Word :=
  if quadInWindow a then .ok (deserialize (s.cells a.toNat Config.quad))
  else .error (.segfault a)

/-- R37 `MemWrite(a, 8, v)`: exactly the eight written cells change, and they become `Raw` (R49). -/
def memWrite (s : State) (a v : Word) : Except Fault State :=
  if quadInWindow a then .ok { s with mem := s.mem.putAll a.toNat (serialize v) }
  else .error (.segfault a)

/-! ## Instruction slots and fetch (R38 to R40) -/

/-- R38 `serialize_ins`, R39: the eight cells of an instruction slot. -/
def serializeIns (t : Token) : List SymByte := .insHead t :: List.replicate (Config.insSize - 1) .insTail

/-- R40 `Fetch(a)`: only the one cell at `a` is examined. -/
def fetch (s : State) (a : Word) : Except Fault Token :=
  match index a with
  | .error f => .error f
  | .ok _ =>
    match s.cell a.toNat with
    | .insHead t => .ok t
    | .insTail => .error (.malformed .notInsHead)
    | .raw _ => .error (.malformed .notInsHead)

/-- R70 steps 2 and 3 up to the arity check: the instruction at `Rip`. -/
def fetchDecode (s : State) : Except Fault Instr :=
  match fetch s (s.reg .rip) with
  | .error f => .error f
  | .ok t =>
    match decode t with
    | .error c => .error (.malformed c)
    | .ok i => .ok i

/-! ## Faults (R190 to R198) -/

/-- R197: a `raise` ends the instruction and the run, and leaves nothing but the fault value. There is no handler, no
saved state, and (R198) no return. -/
def raise (f : Fault) : Answer := .fault f

/-- The answer of an instruction whose effects were computed up to their end or up to a `raise`. -/
def finish : Except Fault State → Answer
  | .ok t => .next t
  | .error f => raise f

/-- R70 steps 3 and 4: the shape check (R67) comes before any effect of the dispatch. -/
def dispatch (i : Instr) (effect : Except Fault State) : Answer :=
  match shapeFault i with
  | some c => raise (.malformed c)
  | none => finish effect

/-- R193: the code of the fault kind. -/
def Fault.kindCode : Fault → Nat
  | .segfault _ => 1
  | .malformed _ => 2

/-- R193: the code of the fault kind of a machine, 0 where it has not faulted. -/
def RunStatus.faultKind : RunStatus → Nat
  | .running => 0
  | .halted => 0
  | .faulted f => f.kindCode

/-- R193: the code of a `Malformed` cause. -/
def causeCode : Malformed → Nat
  | .notInsHead => 1
  | .badToken => 2
  | .unresolvedLabel => 3
  | .arity => 4
  | .leaqSrcNotInd => 5
  | .badShiftAmount => 6
  | .storeToImm => 7

/-! ## Placing an instruction where the next step fetches it -/

/-- Whether a running step would fetch from this value of `Rip`. -/
def fetchable (a : Word) : Bool := (index a).toOption.isSome

/-- The state with an instruction slot holding the token at `Rip`, cut off at `MEM_TOP`. -/
def State.putSlot (s : State) (t : Token) : State :=
  let a := (s.reg .rip).toNat
  { s with mem := s.mem.putAll a ((serializeIns t).take (Config.memTop - a)) }

/-- The state in which the next step fetches this token: the status running, `Rip` as it was where a step can fetch from
it and `MEM_BOT` otherwise, the token's slot at `Rip` (notes/assumptions/5.md). -/
def State.placeToken (s : State) (t : Token) : State :=
  State.putSlot
    (if fetchable (s.reg .rip) then s.setStatus .running
     else (s.setStatus .running).setReg .rip (BitVec.ofNat 64 Config.memBot)) t

end Sys2Proof.Machine
end

