-- ==== Sys2Proof/Machine/Operands.lean ====
section
/-! DEFINITION. The operand resolver (R90 to R93): effective address, value read, store write. -/

namespace Sys2Proof.Machine

/-- R91 `EA(o)`: the address of an indirect operand. It touches no memory and is not range-checked. -/
def ea (s : State) : Indirect → Word
  | .ind1 a => a
  | .ind2 r => s.reg r
  | .ind3 d r => wrap64 ((s.reg r).toInt + d.toInt)

/-- R92 `ValueOf(o)`. -/
def valueOf (s : State) : Operand → Except Fault Word
  | .imm n => .ok n
  | .reg r => .ok (s.reg r)
  | .mem m => memRead s (ea s m)

/-- R93 `Store(o, v)`. -/
def store (s : State) (o : Operand) (v : Word) : Except Fault State :=
  match o with
  | .imm _ => .error (.malformed .storeToImm)
  | .reg r => .ok (s.setReg r v)
  | .mem m => memWrite s (ea s m) v

end Sys2Proof.Machine
end

