-- ==== Sys2Proof/Machine/Alu.lean ====
section
/-! DEFINITION. The meanings of the arithmetic and logic instructions (R112 to R122) over two shared operations. -/

namespace Sys2Proof.Machine

/-- The order of R94 for an instruction that reads a source and updates its destination: source read, destination read,
flags and store, advance. -/
def updateBy (op : AluOp) (src dst : Operand) (s : State) : Except Fault State := do
  let v ← valueOf s src
  let d ← valueOf s dst
  let t ← store (s.setFlags (flagEngine op d v s.flags)) dst (aluResult op d v)
  return t.advance (s.reg .rip)

/-- The same for an instruction with a destination alone; `v` is the implicit source value. -/
def updateAlone (op : AluOp) (v : Word) (dst : Operand) (s : State) : Except Fault State := do
  let d ← valueOf s dst
  let t ← store (s.setFlags (flagEngine op d v s.flags)) dst (aluResult op d v)
  return t.advance (s.reg .rip)

/-- R112. -/
def execAddq (src dst : Operand) (s : State) : Answer := dispatch (.addq src dst) (updateBy .add src dst s)

/-- R113. -/
def execSubq (src dst : Operand) (s : State) : Answer := dispatch (.subq src dst) (updateBy .sub src dst s)

/-- R114: a memory destination is allowed; `SF` and `ZF` keep their values. -/
def execImulq (src dst : Operand) (s : State) : Answer := dispatch (.imulq src dst) (updateBy .imul src dst s)

/-- R117. -/
def execXorq (src dst : Operand) (s : State) : Answer := dispatch (.xorq src dst) (updateBy .xor src dst s)

/-- R116. -/
def execOrq (src dst : Operand) (s : State) : Answer := dispatch (.orq src dst) (updateBy .or src dst s)

/-- R115. -/
def execAndq (src dst : Operand) (s : State) : Answer := dispatch (.andq src dst) (updateBy .and src dst s)

/-- R118: `Addq` with source 1. -/
def execIncq (dst : Operand) (s : State) : Answer := dispatch (.incq dst) (updateAlone .add 1 dst s)

/-- R119: `Subq` with source 1. -/
def execDecq (dst : Operand) (s : State) : Answer := dispatch (.decq dst) (updateAlone .sub 1 dst s)

/-- R120: the flags are written, unlike real x86's. -/
def execNotq (dst : Operand) (s : State) : Answer := dispatch (.notq dst) (updateAlone .not 0 dst s)

/-- R121. -/
def execNegq (dst : Operand) (s : State) : Answer := dispatch (.negq dst) (updateAlone .neg 0 dst s)

/-- R122: `Subq` without the store; an `Imm` destination is only read. -/
def execCmpq (src dst : Operand) (s : State) : Answer :=
  dispatch (.cmpq src dst) do
    let v ← valueOf s src
    let d ← valueOf s dst
    return (s.setFlags (flagEngine .sub d v s.flags)).advance (s.reg .rip)

end Sys2Proof.Machine
end

