-- ==== Sys2Proof/Machine/Stack.lean ====
section
/-! DEFINITION. The meanings of `Pushq` and `Popq` (R150 to R153) and the two stack moves `Callq` and `Retq` share. -/

namespace Sys2Proof.Machine

/-- `x[Rsp] <- wrap64(x[Rsp] - 8)`. -/
def State.growStack (s : State) : State := s.setReg .rsp (wrap64 ((s.reg .rsp).toInt - Config.quad))

/-- `x[Rsp] <- wrap64(x[Rsp] + 8)`. -/
def State.shrinkStack (s : State) : State := s.setReg .rsp (wrap64 ((s.reg .rsp).toInt + Config.quad))

/-- R151: the source is evaluated after `Rsp` is decremented (R153). -/
def execPushq (src : Operand) (s : State) : Answer :=
  dispatch (.pushq src) do
    let v ← valueOf s.growStack src
    let t ← memWrite s.growStack (s.growStack.reg .rsp) v
    return t.advance (s.reg .rip)

/-- R152: the destination address is computed with the old `Rsp`, and `Rsp` is incremented after the store (R153). -/
def execPopq (dst : Operand) (s : State) : Answer :=
  dispatch (.popq dst) do
    let v ← memRead s (s.reg .rsp)
    let t ← store s dst v
    return t.shrinkStack.advance (s.reg .rip)

end Sys2Proof.Machine
end

