-- ==== Sys2Proof/Machine/Control.lean ====
section
/-! DEFINITION. The meanings of the jumps, `Callq`, `Retq` and `Set` (R161 to R177). A target is absolute and is not
checked before the next fetch. -/

namespace Sys2Proof.Machine

/-- `pc <- ValueOf(src)`. -/
def jumpTo (src : Operand) (s : State) : Except Fault State := do
  let a ← valueOf s src
  return s.setReg .rip a

/-- R162: the source is evaluated only when the condition holds. -/
def jumpIf (cc : Cond) (src : Operand) (s : State) : Except Fault State :=
  if condHolds cc s.flags then jumpTo src s else .ok (s.advance (s.reg .rip))

/-- R171: all 64 bits of the destination are written. -/
def setIf (cc : Cond) (dst : Operand) (s : State) : Except Fault State := do
  let t ← store s dst (if condHolds cc s.flags then 1 else 0)
  return t.advance (s.reg .rip)

/-- R161. -/
def execJmp (src : Operand) (s : State) : Answer := dispatch (.jmp src) (jumpTo src s)

/-- R163. -/
def execJEq (src : Operand) (s : State) : Answer := dispatch (.jEq src) (jumpIf .eq src s)

/-- R164. -/
def execJNeq (src : Operand) (s : State) : Answer := dispatch (.jNeq src) (jumpIf .neq src s)

/-- R165. -/
def execJLt (src : Operand) (s : State) : Answer := dispatch (.jLt src) (jumpIf .lt src s)

/-- R166. -/
def execJLe (src : Operand) (s : State) : Answer := dispatch (.jLe src) (jumpIf .le src s)

/-- R167. -/
def execJGt (src : Operand) (s : State) : Answer := dispatch (.jGt src) (jumpIf .gt src s)

/-- R168. -/
def execJGe (src : Operand) (s : State) : Answer := dispatch (.jGe src) (jumpIf .ge src s)

/-- R169: the target is evaluated after the push (R153). -/
def execCallq (src : Operand) (s : State) : Answer :=
  dispatch (.callq src) do
    let t ← memWrite s.growStack (s.growStack.reg .rsp) (nextSlot (s.reg .rip))
    let a ← valueOf t src
    return t.setReg .rip a

/-- R170. -/
def execRetq (s : State) : Answer :=
  dispatch .retq do
    let a ← memRead s (s.reg .rsp)
    return (s.setReg .rip a).shrinkStack

/-- R172. -/
def execSetEq (dst : Operand) (s : State) : Answer := dispatch (.setEq dst) (setIf .eq dst s)

/-- R173. -/
def execSetNeq (dst : Operand) (s : State) : Answer := dispatch (.setNeq dst) (setIf .neq dst s)

/-- R174. -/
def execSetLt (dst : Operand) (s : State) : Answer := dispatch (.setLt dst) (setIf .lt dst s)

/-- R175. -/
def execSetLe (dst : Operand) (s : State) : Answer := dispatch (.setLe dst) (setIf .le dst s)

/-- R176. -/
def execSetGt (dst : Operand) (s : State) : Answer := dispatch (.setGt dst) (setIf .gt dst s)

/-- R177. -/
def execSetGe (dst : Operand) (s : State) : Answer := dispatch (.setGe dst) (setIf .ge dst s)

end Sys2Proof.Machine
end

