-- ==== Sys2Proof/Machine/Moves.lean ====
section
/-! DEFINITION. The meanings of `Movq` and `Leaq` (R95, R96). -/

namespace Sys2Proof.Machine

/-- R95: `v <- ValueOf(src); Store(dest, v)`. -/
def execMovq (src dst : Operand) (s : State) : Answer :=
  dispatch (.movq src dst) do
    let v ← valueOf s src
    let t ← store s dst v
    return t.advance (s.reg .rip)

/-- R96: `Store(dest, EA(src))`; the address is neither dereferenced nor range-checked. -/
def execLeaq (src dst : Operand) (s : State) : Answer :=
  dispatch (.leaq src dst) <|
    match src with
    | .mem m => do
      let t ← store s dst (ea s m)
      return t.advance (s.reg .rip)
    | .imm _ => .error (.malformed .leaqSrcNotInd)
    | .reg _ => .error (.malformed .leaqSrcNotInd)

end Sys2Proof.Machine
end

