-- ==== Sys2Proof/Machine/Shifts.lean ====
section
/-! DEFINITION. The meanings of the shifts (R140 to R143): the count is the source, and even a shift by 0 reads and stores
its destination. -/

namespace Sys2Proof.Machine

/-- R141. -/
def execShlq (amt dst : Operand) (s : State) : Answer := dispatch (.shlq amt dst) (updateBy .shl amt dst s)

/-- R142. -/
def execSarq (amt dst : Operand) (s : State) : Answer := dispatch (.sarq amt dst) (updateBy .sar amt dst s)

/-- R143. -/
def execShrq (amt dst : Operand) (s : State) : Answer := dispatch (.shrq amt dst) (updateBy .shr amt dst s)

end Sys2Proof.Machine
end

