-- ==== Sys2Proof/Machine/Dispatch.lean ====
section
/-! DEFINITION. The meaning of every instruction, one arm per constructor. -/

namespace Sys2Proof.Machine

/-- R70 steps 3 to 5 for a decoded instruction. -/
def exec (i : Instr) (s : State) : Host.Outcome State Fault Refusal :=
  match i with
  | .movq src dst => Sys2Proof.Machine.execMovq src dst s
  | .addq src dst => Sys2Proof.Machine.execAddq src dst s
  | .subq src dst => Sys2Proof.Machine.execSubq src dst s
  | .imulq src dst => Sys2Proof.Machine.execImulq src dst s
  | .xorq src dst => Sys2Proof.Machine.execXorq src dst s
  | .orq src dst => Sys2Proof.Machine.execOrq src dst s
  | .andq src dst => Sys2Proof.Machine.execAndq src dst s
  | .shlq amt dst => Sys2Proof.Machine.execShlq amt dst s
  | .sarq amt dst => Sys2Proof.Machine.execSarq amt dst s
  | .shrq amt dst => Sys2Proof.Machine.execShrq amt dst s
  | .incq dst => Sys2Proof.Machine.execIncq dst s
  | .decq dst => Sys2Proof.Machine.execDecq dst s
  | .notq dst => Sys2Proof.Machine.execNotq dst s
  | .negq dst => Sys2Proof.Machine.execNegq dst s
  | .leaq src dst => Sys2Proof.Machine.execLeaq src dst s
  | .cmpq src dst => Sys2Proof.Machine.execCmpq src dst s
  | .pushq src => Sys2Proof.Machine.execPushq src s
  | .popq dst => Sys2Proof.Machine.execPopq dst s
  | .callq src => Sys2Proof.Machine.execCallq src s
  | .retq => Sys2Proof.Machine.execRetq s
  | .jmp src => Sys2Proof.Machine.execJmp src s
  | .jEq src => Sys2Proof.Machine.execJEq src s
  | .jNeq src => Sys2Proof.Machine.execJNeq src s
  | .jLt src => Sys2Proof.Machine.execJLt src s
  | .jLe src => Sys2Proof.Machine.execJLe src s
  | .jGt src => Sys2Proof.Machine.execJGt src s
  | .jGe src => Sys2Proof.Machine.execJGe src s
  | .setEq dst => Sys2Proof.Machine.execSetEq dst s
  | .setNeq dst => Sys2Proof.Machine.execSetNeq dst s
  | .setLt dst => Sys2Proof.Machine.execSetLt dst s
  | .setLe dst => Sys2Proof.Machine.execSetLe dst s
  | .setGt dst => Sys2Proof.Machine.execSetGt dst s
  | .setGe dst => Sys2Proof.Machine.execSetGe dst s

end Sys2Proof.Machine
end

