-- ==== Sys2Proof/Machine/Step.lean ====
section
/-! DEFINITION. One step of the core (R70, with the run status of R20), and the placing of an instruction where the next
step fetches it. -/

namespace Sys2Proof.Machine

/-- R70. `halted` and `faulted` are absorbing (R20, R178): the halted state stays, and a faulted machine only gives its
fault again. -/
def step (s : State) : Host.Outcome State Fault Refusal :=
  match s.status with
  | .halted => .next s
  | .faulted f => .fault f
  | .running =>
    if s.reg .rip = Config.exitAddr then .next (s.setStatus .halted)
    else
      match fetchDecode s with
      | .error f => raise f
      | .ok i => exec i s

/-- The state in which the next step fetches and runs the instruction of this table word (notes/assumptions/5.md). -/
def State.withFetchWord (s : State) (nbits w : Nat) : State := s.placeToken (tokenOfWord nbits w)

end Sys2Proof.Machine
end

