-- ==== Sys2Proof/Machine/Load.lean ====
section
/-! DEFINITION. Reset as the load contract (R22, R220, R221): an image, when it is well formed, and the state it leaves. -/

namespace Sys2Proof.Machine

/-- R220: the loaded image, the one input of reset. -/
structure Image where
  entry : Word
  textPos : Word
  dataPos : Word
  textSeg : List SymByte
  dataSeg : List SymByte
  deriving DecidableEq, Repr

/-- The token passes the decode and shape checks (R221). -/
def tokenAccepted (t : Token) : Bool :=
  match decode t with
  | .ok i => (shapeFault i).isNone
  | .error _ => false

/-- R221: whole slots, each an accepted `InsHead` then seven `InsTail` (R39). -/
def wholeSlots : List SymByte → Bool
  | [] => true
  | .insHead t :: .insTail :: .insTail :: .insTail :: .insTail :: .insTail :: .insTail :: .insTail :: rest =>
    tokenAccepted t && wholeSlots rest
  | _ => false

/-- Whether the cell is `Raw`. -/
def isRaw : SymByte → Bool
  | .raw _ => true
  | .insHead _ => false
  | .insTail => false

/-- R221: a well-formed image. -/
def Image.wf (img : Image) : Bool :=
  decide ((Config.memBot : Int) ≤ img.textPos.toInt)
    && decide ((Config.memBot : Int) ≤ img.dataPos.toInt)
    && wholeSlots img.textSeg
    && img.dataSeg.all isRaw
    && decide (img.dataPos.toInt = img.textPos.toInt + img.textSeg.length)
    && decide (img.textPos.toInt + img.textSeg.length + img.dataSeg.length ≤ (Config.memTop : Int))

/-- R220 `Reset(image)` for a well-formed image: the text from `text_pos` on, the data immediately following, every other
cell `MEM_FILL`. An ill-formed image is outside the model (R221; 93_implementation_defined.md U18). -/
def load (img : Image) : Option State :=
  if img.wf then
    some { State.reset with
      regs := State.reset.regs.set .rip img.entry
      mem := Memory.putAll [] img.textPos.toNat (img.textSeg ++ img.dataSeg) }
  else none

/-- The text segment with these instructions (R38, R39). -/
def textOf (is : List Instr) : List SymByte := is.flatMap fun i => serializeIns (encode i)

/-- R38 `serialize_string`: the bytes and a zero terminator; used by the loader and assembler only. -/
def serializeString (bytes : List Byte) : List SymByte := bytes.map .raw ++ [.raw 0]

end Sys2Proof.Machine
end

