-- ==== Sys2Proof/Machine/Run.lean ====
section
/-! DEFINITION. The run loop (R178), the end of a run (R226) and what the host gets back of it (R193, R223). -/

namespace Sys2Proof.Machine

/-- One pass of the run loop, with the run status of R20: a fault is recorded in the status. The registers, flags and
memory beside a `faulted` status mean nothing (R197, notes/assumptions/6.md). -/
def tick (s : State) : State :=
  match step s with
  | .next t => t
  | .fault f => s.setStatus (.faulted f)
  | .refused _ => s

/-- What the host gets back (R223): the result and the inspectable state of a halted run, the fault value alone of a
faulted one. The spec has no step budget; `outOfFuel` is a run that has not ended yet (R226, U17). -/
inductive RunEnd where
  | ok (result : Word) (final : State)
  | fault (f : Fault)
  | outOfFuel (s : State)
  deriving DecidableEq, Repr

/-- What the run status says of the run (R178): the result is all 64 bits of `Rax`. -/
def ending (s : State) : RunEnd :=
  match s.status with
  | .halted => .ok (s.reg .rax) s
  | .faulted f => .fault f
  | .running => .outOfFuel s

/-- R193: the code of the fault kind the host gets back, 0 for a run that has not faulted. -/
def RunEnd.faultKind : RunEnd → Nat
  | .ok _ _ => 0
  | .fault f => f.kindCode
  | .outOfFuel _ => 0

/-- R178 `Run`, with at most `fuel` steps. -/
def runLoop (fuel : Nat) (s : State) : RunEnd :=
  match fuel with
  | 0 => ending s
  | n + 1 =>
    match s.status with
    | .running => runLoop n (tick s)
    | .halted => ending s
    | .faulted _ => ending s

end Sys2Proof.Machine
end

