-- ==== Sys2Proof/Safety.lean ====
section
/-! DEFINITION. What counts as a safe run, and the words claims are stated in: when an operand can be accessed, what a
step leaves unchanged, the invariant every step keeps. -/

namespace Sys2Proof.Machine

/-- A run that never ends in a fault (R226). -/
def SafeRun (s : State) : Prop := ∀ n f, runLoop n s ≠ .fault f

/-- A run that ends normally with this result (R178, R226). -/
def HaltsWith (s : State) (v : Word) : Prop := ∃ n t, runLoop n s = .ok v t

/-- An access to the operand raises no `Segfault`: it is no indirect operand, or its quadword lies in the window. -/
def State.reaches (s : State) : Operand → Bool
  | .imm _ => true
  | .reg _ => true
  | .mem m => quadInWindow (ea s m)

/-- Every cell reads as before. -/
def SameCells (s t : State) : Prop := ∀ x, t.cell x = s.cell x

/-- Every cell outside the quadword at `a` reads as before. -/
def SameCellsOutside (a : Word) (s t : State) : Prop :=
  ∀ x, x < a.toNat ∨ a.toNat + Config.quad ≤ x → t.cell x = s.cell x

/-- Every register but those listed reads as before. -/
def SameRegsExcept (rs : List Reg) (s t : State) : Prop := ∀ r, r ∉ rs → t.reg r = s.reg r

/-- The invariant of the machine: memory has its canonical form, and a halted machine has `Rip = EXIT_ADDR` (R20). -/
def State.Inv (s : State) : Prop :=
  s.mem.wf = true ∧ (s.status = .halted → s.reg .rip = Config.exitAddr)

end Sys2Proof.Machine
end

