-- ==== Sys2Proof/Certificates/Slice0/Obligations.lean ====
section
/-! DEFINITION. The statements for the provers. The words they share (the shapes of an instruction rule, classes of
instructions, legal tokens) stand first, under Sys2Proof.Machine.Claims. -/

open Sys2Proof Sys2Proof.Machine

namespace Sys2Proof.Machine.Claims

/-- The answer that is the next state `t` with `Rip` at the next slot: how a step ends whose instruction did not set
`Rip` (R70 step 5). -/
def nextAt (s t : State) : Answer := .next (t.setReg .rip (wrap64 ((s.reg .rip).toInt + 8)))

/-- The state after `x[Rsp] <- wrap64(x[Rsp] - 8)`. -/
def pushed (s : State) : State := s.setReg .rsp (wrap64 ((s.reg .rsp).toInt - 8))

/-- The state after `x[Rsp] <- wrap64(x[Rsp] + 8)`. -/
def popped (s : State) : State := s.setReg .rsp (wrap64 ((s.reg .rsp).toInt + 8))

/-- The low 16 bits of the instruction's token (R61, R62). -/
def HeaderIs (i : Instr) (h : BitVec 16) : Prop := (encode i).extractLsb' 0 16 = h

/-- The rule of an instruction that reads `src` and `dst` and updates `dst`: header, shape fault, the two access faults in
their order, and completion, where `fl` and `res` give the flags and the result of the values of `dst` and `src`. -/
def UpdateRule (mk : Operand → Operand → Instr) (h : BitVec 16) (res : Word → Word → Word)
    (fl : Word → Word → Flags → Flags) : Prop :=
  ∀ (src dst : Operand) (s : State),
    HeaderIs (mk src dst) h ∧
    (dst.isImm = true → exec (mk src dst) s = .fault (.malformed .storeToImm)) ∧
    (∀ f, dst.isImm = false → valueOf s src = .error f → exec (mk src dst) s = .fault f) ∧
    (∀ v f, dst.isImm = false → valueOf s src = .ok v → valueOf s dst = .error f → exec (mk src dst) s = .fault f) ∧
    (dst.isImm = false → s.reaches src = true → s.reaches dst = true →
      ∃ v d t, valueOf s src = .ok v ∧ valueOf s dst = .ok d ∧
        store (s.setFlags (fl d v s.flags)) dst (res d v) = .ok t ∧ exec (mk src dst) s = nextAt s t)

/-- The same for an instruction that has only the operand it reads and updates. -/
def UnaryRule (mk : Operand → Instr) (h : BitVec 16) (res : Word → Word) (fl : Word → Flags) : Prop :=
  ∀ (dst : Operand) (s : State),
    HeaderIs (mk dst) h ∧
    (dst.isImm = true → exec (mk dst) s = .fault (.malformed .storeToImm)) ∧
    (∀ f, dst.isImm = false → valueOf s dst = .error f → exec (mk dst) s = .fault f) ∧
    (dst.isImm = false → s.reaches dst = true →
      ∃ d t, valueOf s dst = .ok d ∧ store (s.setFlags (fl d)) dst (res d) = .ok t ∧ exec (mk dst) s = nextAt s t)

/-- The rule of a shift: the count operand is `Imm` or `Reg(Rcx)`, the effective count `c` is the low six bits of its
value (R140), `SF` and `ZF` are written when `c` is not 0 and `OF` when it is 1. -/
def ShiftRule (mk : Operand → Operand → Instr) (h : BitVec 16) (res : Word → Nat → Word) (ov : Word → Bool) : Prop :=
  ∀ (amt dst : Operand) (s : State),
    HeaderIs (mk amt dst) h ∧
    ((∀ n, amt ≠ .imm n) → amt ≠ .reg .rcx → exec (mk amt dst) s = .fault (.malformed .badShiftAmount)) ∧
    (((∃ n, amt = .imm n) ∨ amt = .reg .rcx) → dst.isImm = true →
      exec (mk amt dst) s = .fault (.malformed .storeToImm)) ∧
    (∀ f, ((∃ n, amt = .imm n) ∨ amt = .reg .rcx) → dst.isImm = false → valueOf s dst = .error f →
      exec (mk amt dst) s = .fault f) ∧
    (((∃ n, amt = .imm n) ∨ amt = .reg .rcx) → dst.isImm = false → s.reaches dst = true →
      ∃ a d t, valueOf s amt = .ok a ∧ valueOf s dst = .ok d ∧
        store (s.setFlags
          { of := if a.toNat % 64 = 1 then ov d else s.flags.of
            sf := if a.toNat % 64 ≠ 0 then decide ((res d (a.toNat % 64)).toInt < 0) else s.flags.sf
            zf := if a.toNat % 64 ≠ 0 then decide (res d (a.toNat % 64) = 0) else s.flags.zf })
          dst (res d (a.toNat % 64)) = .ok t ∧
        exec (mk amt dst) s = nextAt s t)

/-- The rule of a conditional jump on the condition `c` of the flags (R162). -/
def JumpRule (mk : Operand → Instr) (h : BitVec 16) (c : Flags → Bool) : Prop :=
  ∀ (src : Operand) (s : State),
    HeaderIs (mk src) h ∧
    (c s.flags = false → exec (mk src) s = nextAt s s) ∧
    (∀ f, c s.flags = true → valueOf s src = .error f → exec (mk src) s = .fault f) ∧
    (c s.flags = true → s.reaches src = true →
      ∃ a, valueOf s src = .ok a ∧ exec (mk src) s = .next (s.setReg .rip a))

/-- The rule of a conditional set on the condition `c` of the flags (R171). -/
def SetRule (mk : Operand → Instr) (h : BitVec 16) (c : Flags → Bool) : Prop :=
  ∀ (dst : Operand) (s : State),
    HeaderIs (mk dst) h ∧
    (dst.isImm = true → exec (mk dst) s = .fault (.malformed .storeToImm)) ∧
    (∀ f, dst.isImm = false → store s dst (if c s.flags then 1 else 0) = .error f → exec (mk dst) s = .fault f) ∧
    (dst.isImm = false → s.reaches dst = true →
      ∃ t, store s dst (if c s.flags then 1 else 0) = .ok t ∧ exec (mk dst) s = nextAt s t)

/-- The operand an instruction stores its result to, for the instructions that use no stack (R67). -/
def storedOperand : Instr → Option Operand
  | .movq _ d => some d
  | .leaq _ d => some d
  | .addq _ d => some d
  | .subq _ d => some d
  | .imulq _ d => some d
  | .xorq _ d => some d
  | .orq _ d => some d
  | .andq _ d => some d
  | .shlq _ d => some d
  | .sarq _ d => some d
  | .shrq _ d => some d
  | .incq d => some d
  | .decq d => some d
  | .notq d => some d
  | .negq d => some d
  | .setEq d => some d
  | .setNeq d => some d
  | .setLt d => some d
  | .setLe d => some d
  | .setGt d => some d
  | .setGe d => some d
  | .cmpq _ _ => none
  | .pushq _ => none
  | .popq _ => none
  | .callq _ => none
  | .retq => none
  | .jmp _ => none
  | .jEq _ => none
  | .jNeq _ => none
  | .jLt _ => none
  | .jLe _ => none
  | .jGt _ => none
  | .jGe _ => none

/-- The condition of a conditional jump or set. -/
def condOf : Instr → Option Cond
  | .jEq _ => some .eq
  | .jNeq _ => some .neq
  | .jLt _ => some .lt
  | .jLe _ => some .le
  | .jGt _ => some .gt
  | .jGe _ => some .ge
  | .setEq _ => some .eq
  | .setNeq _ => some .neq
  | .setLt _ => some .lt
  | .setLe _ => some .le
  | .setGt _ => some .gt
  | .setGe _ => some .ge
  | _ => none

/-- The jumps: `Jmp` and `J(cc)`. -/
def isJump : Instr → Bool
  | .jmp _ => true
  | .jEq _ => true
  | .jNeq _ => true
  | .jLt _ => true
  | .jLe _ => true
  | .jGt _ => true
  | .jGe _ => true
  | _ => false

/-- The instructions that may set `Rip`: `Jmp`, `J(cc)`, `Callq`, `Retq` (R13). -/
def setsRip (i : Instr) : Prop := isJump i = true ∨ (∃ src, i = .callq src) ∨ i = .retq

/-- The last row of the table of R17: instructions that write no flag. -/
def touchesNoFlag (i : Instr) : Prop :=
  (∃ a b, i = .movq a b) ∨ (∃ a b, i = .leaq a b) ∨ (∃ a, i = .pushq a) ∨ (∃ a, i = .popq a) ∨ (∃ a, i = .callq a) ∨
    i = .retq ∨ (∃ a, i = .jmp a) ∨ (condOf i).isSome = true

/-- The shifts, with their count operand. -/
def shiftAmount : Instr → Option Operand
  | .shlq a _ => some a
  | .sarq a _ => some a
  | .shrq a _ => some a
  | _ => none

/-- Whether the operand names the register, as itself or as a base. -/
def mentions (r : Reg) : Operand → Bool
  | .imm _ => false
  | .reg q => q == r
  | .mem (.ind1 _) => false
  | .mem (.ind2 q) => q == r
  | .mem (.ind3 _ q) => q == r

/-- R68, for an operand slot in use: a reserved kind, an illegal register number, or a non-zero unused field. -/
def illegalSlot (sl : Slot) : Prop :=
  8 ≤ sl.kind.toNat ∨
    (sl.kind.toNat ∈ [1, 3, 4, 7] ∧ 17 ≤ sl.reg.toNat) ∨
    (sl.kind.toNat ∈ [0, 2, 5, 6] ∧ sl.reg ≠ 0) ∨
    (sl.kind.toNat ∈ [1, 3, 5, 6, 7] ∧ sl.val ≠ 0)

/-- R68: the conditions under which a token is not one of the legal encodings. -/
def illegalToken (t : Token) : Prop :=
  22 < t.opc ∨
    ((t.opc = 21 ∨ t.opc = 22) ∧ 5 < t.cc) ∨
    (t.opc ≠ 21 ∧ t.opc ≠ 22 ∧ t.cc ≠ 0) ∨
    2 < t.nops ∨
    (0 < t.nops ∧ illegalSlot (t.slot 0)) ∨
    (1 < t.nops ∧ illegalSlot (t.slot 1)) ∨
    (t.nops = 0 ∧ t.slot 0 ≠ ⟨0, 0, 0⟩) ∨
    (t.nops ≤ 1 ∧ t.slot 1 ≠ ⟨0, 0, 0⟩)

/-- R69: an operand in use carries an unresolved label. -/
def labelled (t : Token) : Prop :=
  (0 < t.nops ∧ (t.slot 0).kind.toNat ∈ [5, 6, 7]) ∨ (1 < t.nops ∧ (t.slot 1).kind.toNat ∈ [5, 6, 7])

/-- R66: the arity of an opcode number. -/
def arityOf (opc : Nat) : Nat :=
  if opc = 19 then 0 else if opc ≤ 9 ∨ opc = 14 ∨ opc = 15 then 2 else 1

/-- The signed range of 64 bits. -/
def inRange (n : Int) : Prop := -2 ^ 63 ≤ n ∧ n ≤ 2 ^ 63 - 1

end Sys2Proof.Machine.Claims

open Sys2Proof.Machine.Claims

/-! ## Encoding and decoding -/

/-- Decoding an encoded instruction gives it back, whatever its operands. The layout is the spec's own decision
(92_eei_decisions.md D1; notes/assumptions/20.md). -/
def Obligations.DecodeOfEncodeGivesInstructionBack : Prop :=
  ∀ i : Instr, decode (encode i) = .ok i

/-- A token that decodes is the encoding of what it decodes to: "one token per instruction" (the spec's own decision,
92_eei_decisions.md D21; notes/assumptions/20.md). -/
def Obligations.EncodeOfDecodeGivesTokenBack : Prop :=
  ∀ (t : Token) (i : Instr), decode t = .ok i → encode i = t

/-- Tokens written out in 95_test_vectors.md decode to the instructions they stand for there, one of each family. The
layout is the spec's own decision (92_eei_decisions.md D1). -/
def Obligations.WrittenOutWordsDecode : Prop :=
  decodeTableWord 176 0x00000000000000000001000000000000002A00002000 = some (.movq (.imm 42) (.reg .rax)) ∧
  decodeTableWord 176 0xFFFFFFFFFFFFFFF80604000000000000000005012000
    = some (.movq (.reg .rdi) (.mem (.ind3 0xFFFFFFFFFFFFFFF8#64 .rbp))) ∧
  decodeTableWord 176 0x00000000000000000001000000000000000001012002 = some (.subq (.reg .rbx) (.reg .rax)) ∧
  decodeTableWord 176 0x0000000000000000010100000000004000480002200E
    = some (.leaq (.mem (.ind1 0x400048#64)) (.reg .rbx)) ∧
  decodeTableWord 176 0x00000000000000000001000000000000000100002009 = some (.shrq (.imm 1) (.reg .rax)) ∧
  decodeTableWord 176 0x00000000000000000000000000000000000000011010 = some (.pushq (.reg .rax)) ∧
  decodeTableWord 176 0x00000000000000000000000000000000000000000013 = some .retq ∧
  decodeTableWord 176 0x0000000000000000000000000000000FDEAD00001014 = some (.jmp (.imm 0xFDEAD#64)) ∧
  decodeTableWord 176 0x00000000000000000000000000000040001000001115 = some (.jNeq (.imm 0x400010#64)) ∧
  decodeTableWord 176 0x00000000000000000000000000000000000002011216 = some (.setLt (.reg .rcx))

/-- A token that is no legal encoding is a bad token; a legal one with a label is refused for the label; one with the
wrong number of operands for its arity; every other token decodes. Legality, the label kinds and the order are the
spec's own decisions (92_eei_decisions.md D21, D22, D13; notes/assumptions/20.md, 19.md). -/
def Obligations.DecoderSortsEveryToken : Prop :=
  ∀ t : Token,
    (illegalToken t → decode t = .error .badToken) ∧
    (¬ illegalToken t → labelled t → decode t = .error .unresolvedLabel) ∧
    (¬ illegalToken t → ¬ labelled t → t.nops ≠ arityOf t.opc → decode t = .error .arity) ∧
    (¬ illegalToken t → ¬ labelled t → t.nops = arityOf t.opc → ∃ i, decode t = .ok i)

/-- The forms each opcode refuses (30_encoding.md §3), and nothing else is refused by the shape check. That the check
comes first, its order where two constraints are broken, and that every other form is accepted are the spec's own
decisions (92_eei_decisions.md D13, D20; notes/assumptions/19.md, 20.md). -/
def Obligations.ShapeCheckRefusesExactlyTheTable : Prop :=
  ∀ (s : State) (n : Word),
    (∀ src dst, (∀ m, src ≠ .mem m) → exec (.leaq src dst) s = .fault (.malformed .leaqSrcNotInd)) ∧
    (∀ amt dst, (∀ k, amt ≠ .imm k) → amt ≠ .reg .rcx →
      exec (.shlq amt dst) s = .fault (.malformed .badShiftAmount) ∧
      exec (.sarq amt dst) s = .fault (.malformed .badShiftAmount) ∧
      exec (.shrq amt dst) s = .fault (.malformed .badShiftAmount)) ∧
    (∀ m, exec (.leaq (.mem m) (.imm n)) s = .fault (.malformed .storeToImm)) ∧
    (∀ amt, (∃ k, amt = .imm k) ∨ amt = .reg .rcx →
      exec (.shlq amt (.imm n)) s = .fault (.malformed .storeToImm) ∧
      exec (.sarq amt (.imm n)) s = .fault (.malformed .storeToImm) ∧
      exec (.shrq amt (.imm n)) s = .fault (.malformed .storeToImm)) ∧
    (∀ i, storedOperand i = some (.imm n) → (∀ src dst, i ≠ .leaq src dst) → shiftAmount i = none →
      exec i s = .fault (.malformed .storeToImm)) ∧
    exec (.popq (.imm n)) s = .fault (.malformed .storeToImm) ∧
    (∀ i c, i.wellFormed = true → exec i s ≠ .fault (.malformed c))

/-! ## The step and the run -/

/-- 30_encoding.md §5: when the cell at `Rip` holds a token that decodes to `i`, the step is `exec` of `i` at that
state; the advance of `Rip` is inside `exec`. -/
def Obligations.StepRunsDecodedInstruction : Prop :=
  ∀ (s : State) (t : Token) (i : Instr),
    s.status = .running → s.reg .rip ≠ 0xFDEAD#64 →
    0x400000 ≤ (s.reg .rip).toInt → (s.reg .rip).toInt < 0x410000 →
    s.cell (s.reg .rip).toNat = .insHead t → decode t = .ok i →
    step s = exec i s

/-- 30_encoding.md §5 steps 2 and 3: a step whose fetch or decoding raises ends in that fault. -/
def Obligations.FetchAndDecodeFaultsEndTheStep : Prop :=
  ∀ s : State, s.status = .running → s.reg .rip ≠ 0xFDEAD#64 →
    (¬ (0x400000 ≤ (s.reg .rip).toInt ∧ (s.reg .rip).toInt < 0x410000) →
      step s = .fault (.segfault (s.reg .rip))) ∧
    (0x400000 ≤ (s.reg .rip).toInt → (s.reg .rip).toInt < 0x410000 →
      (∀ t, s.cell (s.reg .rip).toNat ≠ .insHead t) → step s = .fault (.malformed .notInsHead)) ∧
    (∀ t c, 0x400000 ≤ (s.reg .rip).toInt → (s.reg .rip).toInt < 0x410000 →
      s.cell (s.reg .rip).toNat = .insHead t → decode t = .error c → step s = .fault (.malformed c))

/-- 44_control.md §5; the run status is the spec's own decision (92_eei_decisions.md D19): a running machine with `Rip
= EXIT_ADDR` halts without changing a register, flag or cell; `halted` and `faulted` are absorbing. -/
def Obligations.ExitAddressHaltsAndEndsAreAbsorbing : Prop :=
  ∀ (s : State) (f : Fault),
    (s.status = .running → s.reg .rip = 0xFDEAD#64 → step s = .next { s with status := .halted }) ∧
    (s.status = .halted → step s = .next s) ∧
    (s.status = .faulted f → step s = .fault f)

/-- 44_control.md §5: the run loop returns `Rax` of the halted state; a halted or faulted machine is not stepped; more
fuel changes nothing once a run has ended. The bound on the steps is the model's own (notes/assumptions/12.md). -/
def Obligations.RunLoopReturnsRaxAtHalt : Prop :=
  (∀ (s : State) n, s.status = .running → s.reg .rip = 0xFDEAD#64 →
    runLoop (n + 1) s = .ok (s.reg .rax) { s with status := .halted }) ∧
  (∀ (s : State) n, s.status = .halted → runLoop n s = .ok (s.reg .rax) s) ∧
  (∀ (s : State) n f, s.status = .faulted f → runLoop n s = .fault f) ∧
  (∀ (s t : State) n v, runLoop n s = .ok v t → t.status = .halted ∧ v = t.reg .rax) ∧
  (∀ (s : State) n f, s.status = .running → s.reg .rip ≠ 0xFDEAD#64 → step s = .fault f →
    runLoop (n + 1) s = .fault f) ∧
  (∀ (s t : State) n k v, runLoop n s = .ok v t → runLoop (n + k) s = .ok v t) ∧
  (∀ (s : State) n k f, runLoop n s = .fault f → runLoop (n + k) s = .fault f)

/-- Of the model itself (notes/assumptions/10.md): no instruction of the opcode table is left without a meaning, so a
step never refuses. -/
def Obligations.StepNeverRefuses : Prop := ∀ (s : State) (r : Refusal), step s ≠ .refused r

/-- The model's own placing of an instruction (notes/assumptions/5.md): the next step runs the instruction the decoder
reads from the word. -/
def Obligations.PlacedWordIsTheNextInstruction : Prop :=
  ∀ (s : State) (nbits w : Nat) (i : Instr), decodeTableWord nbits w = some i →
    step (s.withFetchWord nbits w) = exec i (s.withFetchWord nbits w)

/-! ## Reset -/

/-- 70_reset_and_hazards.md §1: what a load leaves, for every well-formed image. The run status, what the image does not
cover, and what makes an image well formed are the spec's own decisions (92_eei_decisions.md D19, D17, D23;
notes/assumptions/1.md, 10.md, 11.md). -/
def Obligations.LoadLeavesTheLoadContract : Prop :=
  ∀ (img : Image), img.wf = true →
    ∃ s, load img = some s ∧
      s.reg .rip = img.entry ∧ s.reg .rsp = 0x40FFF8#64 ∧
      (∀ r, r ≠ .rip → r ≠ .rsp → s.reg r = 0) ∧
      s.flags = { of := false, sf := false, zf := false } ∧ s.status = .running ∧
      (∀ k < img.textSeg.length, img.textSeg[k]? = some (s.cell (img.textPos.toNat + k))) ∧
      (∀ k < img.dataSeg.length,
        img.dataSeg[k]? = some (s.cell (img.textPos.toNat + img.textSeg.length + k))) ∧
      (∀ k < 0x10000,
        0x400000 + k < img.textPos.toNat ∨
          img.textPos.toNat + img.textSeg.length + img.dataSeg.length ≤ 0x400000 + k →
        s.cell (0x400000 + k) = Config.memFill k)

/-- The state after reset meets the invariant of the machine. The canonical form of memory is the model's own
(notes/assumptions/2.md). -/
def Obligations.ResetMeetsInvariant : Prop := State.reset.Inv

/-! ## Invariants of every step -/

/-- Every step keeps the canonical form of memory (the model's own, notes/assumptions/2.md), and a halted machine has
`Rip = EXIT_ADDR` (10_state.md §6). -/
def Obligations.EveryStepKeepsInvariant : Prop :=
  ∀ s t : State, s.Inv → step s = .next t → t.Inv

/-- 20_memory.md §6, "no store can create or change an instruction": along any run the executable cells only shrink.
-/
def Obligations.NoRunCreatesAnInstruction : Prop :=
  ∀ (n : Nat) (s t : State), Host.Core.run core n s = .next t →
    ∀ x tok, t.cell x = .insHead tok → s.cell x = .insHead tok

/-- 44_control.md §5: `Rip = EXIT_ADDR` is reached only by `Jmp`, `J(cc)`, `Callq` or `Retq`. -/
def Obligations.OnlyControlTransferReachesExit : Prop :=
  ∀ s t : State, s.status = .running → s.reg .rip ≠ 0xFDEAD#64 → step s = .next t → t.reg .rip = 0xFDEAD#64 →
    ∃ i, fetchDecode s = .ok i ∧ setsRip i

/-- The address a `Segfault` records is one whose quadword is not wholly inside the window. That an address is
recorded is the spec's own decision (92_eei_decisions.md D15; notes/assumptions/14.md). -/
def Obligations.SegfaultQuadwordIsNotWhollyInTheWindow : Prop :=
  ∀ (s : State) (a : Word), s.status = .running → step s = .fault (.segfault a) →
    ¬ (0x400000 ≤ a.toInt ∧ a.toInt ≤ 0x40FFF8)

/-- 10_state.md §3, "Readers: only J(cc) and Set(cc)": what any other instruction does, its flags apart, does not
depend on the flags. -/
def Obligations.OnlyConditionalsReadFlags : Prop :=
  ∀ (i : Instr) (s : State) (fl : Flags), condOf i = none →
    (∀ t, exec i s = .next t → ∃ fl', exec i (s.setFlags fl) = .next (t.setFlags fl')) ∧
    (∀ f, exec i s = .fault f → exec i (s.setFlags fl) = .fault f)

/-! ## Registers and memory -/

/-- 10_state.md §1: the 17 registers are stored apart; a write is read back whole and leaves the others. -/
def Obligations.RegistersAreStoredApart : Prop :=
  ∀ (s : State) (r q : Reg) (v : Word), (s.setReg r v).reg q = if q = r then v else s.reg q

/-- R33: the translation, and that every data access and every fetch goes through it. -/
def Obligations.IndexTranslatesTheWindow : Prop :=
  ∀ a : Word,
    (0x400000 ≤ a.toInt → a.toInt < 0x410000 → index a = .ok (a.toInt - 0x400000).toNat) ∧
    (¬ (0x400000 ≤ a.toInt ∧ a.toInt < 0x410000) → index a = .error (.segfault a)) ∧
    (∀ f, index a = .error f →
      ∀ s : State, memRead s a = .error f ∧ (∀ v, memWrite s a v = .error f) ∧ fetch s a = .error f)

/-- 20_memory.md §2, §3: a data read takes eight cells, the first the least significant byte, and those that are not
`Raw` as zero. The one check before anything is read, and the recorded address, are the spec's own decisions
(92_eei_decisions.md D3, D15; notes/assumptions/14.md). -/
def Obligations.ReadsAreLittleEndianQuadwords : Prop :=
  ∀ (s : State) (a : Word),
    (¬ (0x400000 ≤ a.toInt ∧ a.toInt ≤ 0x40FFF8) → memRead s a = .error (.segfault a)) ∧
    (0x400000 ≤ a.toInt → a.toInt ≤ 0x40FFF8 →
      ∃ v, memRead s a = .ok v ∧ ∀ i < 8, ∀ c, s.cell (a.toNat + i) = c →
        v.extractLsb' (8 * i) 8 = match c with
          | .raw b => b
          | .insHead _ => 0
          | .insTail => 0)

/-- 20_memory.md §2, §3: a data write makes exactly the eight cells `Raw`, least significant byte first, and writes
nothing when the quadword is not wholly in the window (no partial write: the spec's own decision, 92_eei_decisions.md
D3; notes/assumptions/14.md). -/
def Obligations.WritesAreEightRawCells : Prop :=
  ∀ (s : State) (a v : Word),
    (¬ (0x400000 ≤ a.toInt ∧ a.toInt ≤ 0x40FFF8) → memWrite s a v = .error (.segfault a)) ∧
    (0x400000 ≤ a.toInt → a.toInt ≤ 0x40FFF8 →
      ∃ t, memWrite s a v = .ok t ∧
        (∀ i < 8, t.cell (a.toNat + i) = .raw (v.extractLsb' (8 * i) 8)) ∧
        (∀ x, x < a.toNat ∨ a.toNat + 8 ≤ x → t.cell x = s.cell x) ∧
        (∀ r, t.reg r = s.reg r) ∧ t.flags = s.flags ∧ t.status = s.status)

/-- 20_memory.md §2 (R51, whose second half is marked derived there): the round trip, and what its converse does to
cells that are not `Raw`. -/
def Obligations.SerializeRoundTrip : Prop :=
  (∀ v : Word, deserialize (serialize v) = v) ∧
  (∀ cs : List SymByte, cs.length = 8 →
    serialize (deserialize cs) = cs.map fun c => match c with
      | .raw b => .raw b
      | .insHead _ => .raw 0
      | .insTail => .raw 0)

/-- 20_memory.md §2, §3 (derived there): a read of the written address gives the value; a read one byte further gives
bytes 1 to 7 of it and then the cell after the quadword. -/
def Obligations.ReadAfterWrite : Prop :=
  ∀ (s t : State) (a v : Word), memWrite s a v = .ok t →
    memRead t a = .ok v ∧
    (∀ w, memRead t (wrap64 (a.toInt + 1)) = .ok w →
      (∀ i < 7, w.extractLsb' (8 * i) 8 = v.extractLsb' (8 * (i + 1)) 8) ∧
      w.extractLsb' 56 8 = dataByte (s.cell (a.toNat + 8)))

/-- R40. -/
def Obligations.FetchExaminesOneCell : Prop :=
  ∀ (s : State) (a : Word),
    (¬ (0x400000 ≤ a.toInt ∧ a.toInt < 0x410000) → fetch s a = .error (.segfault a)) ∧
    (∀ t, 0x400000 ≤ a.toInt → a.toInt < 0x410000 → s.cell a.toNat = .insHead t → fetch s a = .ok t) ∧
    (0x400000 ≤ a.toInt → a.toInt < 0x410000 → (∀ t, s.cell a.toNat ≠ .insHead t) →
      fetch s a = .error (.malformed .notInsHead))

/-- 20_memory.md §6 with the spec's own decision (92_eei_decisions.md D8; notes/assumptions/7.md): after a store, a
fetch from one of the eight written cells faults, and a fetch from anywhere else is what it was. -/
def Obligations.StoreDestroysOnlyTheWrittenHeads : Prop :=
  ∀ (s t : State) (a v b : Word), memWrite s a v = .ok t →
    (a.toNat ≤ b.toNat → b.toNat < a.toNat + 8 → fetch t b = .error (.malformed .notInsHead)) ∧
    (b.toNat < a.toNat ∨ a.toNat + 8 ≤ b.toNat → fetch t b = fetch s b)

/-! ## The operand resolver -/

/-- 40_operands_moves.md §1: effective address and value read of the five forms. That the sum of `Ind3` wraps is the
spec's own decision (92_eei_decisions.md D4; notes/assumptions/15.md). -/
def Obligations.OperandValues : Prop :=
  ∀ (s : State) (n a d : Word) (r : Reg),
    ea s (.ind1 a) = a ∧ ea s (.ind2 r) = s.reg r ∧ ea s (.ind3 d r) = wrap64 ((s.reg r).toInt + d.toInt) ∧
    valueOf s (.imm n) = .ok n ∧ valueOf s (.reg r) = .ok (s.reg r) ∧
    (∀ m, valueOf s (.mem m) = memRead s (ea s m))

/-- 40_operands_moves.md §1: the store write of the five forms. -/
def Obligations.OperandStores : Prop :=
  ∀ (s : State) (n v : Word) (r : Reg),
    store s (.reg r) v = .ok (s.setReg r v) ∧
    (∀ m, store s (.mem m) v = memWrite s (ea s m) v) ∧
    store s (.imm n) v = .error (.malformed .storeToImm)

/-- An operand whose quadword is reached reads and stores without a fault, and no other indirect operand does. -/
def Obligations.ReachedOperandsDoNotFault : Prop :=
  ∀ (s : State) (o : Operand) (v : Word),
    ((∃ w, valueOf s o = .ok w) ↔ s.reaches o = true) ∧
    ((∃ t, store s o v = .ok t) ↔ o.isImm = false ∧ s.reaches o = true) ∧
    (∀ m, o = .mem m → (s.reaches o = true ↔ 0x400000 ≤ (ea s m).toInt ∧ (ea s m).toInt ≤ 0x40FFF8))

/-! ## Data movement -/

/-- R95. -/
def Obligations.MovqCopiesAQuadword : Prop :=
  ∀ (src dst : Operand) (s : State),
    HeaderIs (.movq src dst) 0x2000 ∧
    (dst.isImm = true → exec (.movq src dst) s = .fault (.malformed .storeToImm)) ∧
    (∀ f, dst.isImm = false → valueOf s src = .error f → exec (.movq src dst) s = .fault f) ∧
    (∀ v f, dst.isImm = false → valueOf s src = .ok v → store s dst v = .error f →
      exec (.movq src dst) s = .fault f) ∧
    (dst.isImm = false → s.reaches src = true → s.reaches dst = true →
      ∃ v t, valueOf s src = .ok v ∧ store s dst v = .ok t ∧ exec (.movq src dst) s = nextAt s t)

/-- 40_operands_moves.md §2: the address is stored as it is computed. That it is not range-checked is the spec's own
decision (92_eei_decisions.md D11; notes/assumptions/18.md). -/
def Obligations.LeaqStoresTheEffectiveAddress : Prop :=
  ∀ (src dst : Operand) (s : State),
    HeaderIs (.leaq src dst) 0x200E ∧
    ((∀ m, src ≠ .mem m) → exec (.leaq src dst) s = .fault (.malformed .leaqSrcNotInd)) ∧
    (∀ m, src = .mem m →
      (dst.isImm = true → exec (.leaq src dst) s = .fault (.malformed .storeToImm)) ∧
      (∀ f, dst.isImm = false → store s dst (ea s m) = .error f → exec (.leaq src dst) s = .fault f) ∧
      (dst.isImm = false → s.reaches dst = true →
        ∃ t, store s dst (ea s m) = .ok t ∧ exec (.leaq src dst) s = nextAt s t))

/-! ## Arithmetic and logic -/

/-- 41_alu.md §2. That zero counts as non-negative in `OF` is the spec's own decision (92_eei_decisions.md D6;
notes/assumptions/15.md). -/
def Obligations.AddqAddsAndSetsAllFlags : Prop :=
  UpdateRule .addq 0x2001 (fun d v => wrap64 (d.toInt + v.toInt)) fun d v _ =>
    let r := wrap64 (d.toInt + v.toInt)
    { of := decide ((d.toInt < 0 ↔ v.toInt < 0) ∧ ¬ (r.toInt < 0 ↔ d.toInt < 0))
      sf := decide (r.toInt < 0)
      zf := decide (r = 0) }

/-- 41_alu.md §2, with the forced `OF` of a source `MIN`. The wrap of the result and the meaning of sign are the spec's
own decisions (92_eei_decisions.md D5, D6; notes/assumptions/15.md). -/
def Obligations.SubqSubtractsAndSetsAllFlags : Prop :=
  UpdateRule .subq 0x2002 (fun d v => wrap64 (d.toInt - v.toInt)) fun d v _ =>
    let r := wrap64 (d.toInt - v.toInt)
    { of := decide ((¬ (d.toInt < 0 ↔ v.toInt < 0) ∧ ¬ (r.toInt < 0 ↔ d.toInt < 0)) ∨ v.toInt = -2 ^ 63)
      sf := decide (r.toInt < 0)
      zf := decide (r = 0) }

/-- 41_alu.md §2: only `OF` is written, by the exact product. That the result wraps is the spec's own decision
(92_eei_decisions.md D5; notes/assumptions/15.md). -/
def Obligations.ImulqMultipliesAndWritesOnlyOverflow : Prop :=
  UpdateRule .imulq 0x2003 (fun d v => wrap64 (d.toInt * v.toInt)) fun d v old =>
    { of := decide (d.toInt * v.toInt < -2 ^ 63 ∨ d.toInt * v.toInt > 2 ^ 63 - 1)
      sf := old.sf
      zf := old.zf }

/-- R115, R116, R117, R120. -/
def Obligations.LogicClearsOverflowAndSetsSignZero : Prop :=
  UpdateRule .andq 0x2006 (fun d v => d &&& v)
    (fun d v _ => { of := false, sf := decide ((d &&& v).toInt < 0), zf := decide (d &&& v = 0) }) ∧
  UpdateRule .orq 0x2005 (fun d v => d ||| v)
    (fun d v _ => { of := false, sf := decide ((d ||| v).toInt < 0), zf := decide (d ||| v = 0) }) ∧
  UpdateRule .xorq 0x2004 (fun d v => d ^^^ v)
    (fun d v _ => { of := false, sf := decide ((d ^^^ v).toInt < 0), zf := decide (d ^^^ v = 0) }) ∧
  UnaryRule .notq 0x100C (fun d => ~~~d)
    (fun d => { of := false, sf := decide ((~~~d).toInt < 0), zf := decide (~~~d = 0) })

/-- 41_alu.md §4: `Addq` and `Subq` with the source 1, and with their decisions (92_eei_decisions.md D5, D6;
notes/assumptions/15.md). -/
def Obligations.IncqDecqStepByOne : Prop :=
  UnaryRule .incq 0x100A (fun d => wrap64 (d.toInt + 1))
    (fun d =>
      let r := wrap64 (d.toInt + 1)
      { of := decide (¬ d.toInt < 0 ∧ ¬ (r.toInt < 0 ↔ d.toInt < 0))
        sf := decide (r.toInt < 0)
        zf := decide (r = 0) }) ∧
  UnaryRule .decq 0x100B (fun d => wrap64 (d.toInt - 1))
    (fun d =>
      let r := wrap64 (d.toInt - 1)
      { of := decide (d.toInt < 0 ∧ ¬ (r.toInt < 0 ↔ d.toInt < 0))
        sf := decide (r.toInt < 0)
        zf := decide (r = 0) })

/-- 41_alu.md §4: `OF` exactly from `MIN`. That the result wraps is the spec's own decision (92_eei_decisions.md D5;
notes/assumptions/15.md). -/
def Obligations.NegqNegatesAndSetsAllFlags : Prop :=
  UnaryRule .negq 0x100D (fun d => wrap64 (-d.toInt))
    (fun d =>
      { of := decide (d.toInt = -2 ^ 63)
        sf := decide ((wrap64 (-d.toInt)).toInt < 0)
        zf := decide (wrap64 (-d.toInt) = 0) })

/-- 41_alu.md §5: the flags of `Subq`, and nothing else but `Rip`; an `Imm` destination is only read. The meaning of
sign and the `Imm` destination are the spec's own decisions (92_eei_decisions.md D6, D20; notes/assumptions/15.md,
20.md). -/
def Obligations.CmpqSetsFlagsAlone : Prop :=
  ∀ (src dst : Operand) (s : State),
    HeaderIs (.cmpq src dst) 0x200F ∧
    (∀ f, valueOf s src = .error f → exec (.cmpq src dst) s = .fault f) ∧
    (∀ v f, valueOf s src = .ok v → valueOf s dst = .error f → exec (.cmpq src dst) s = .fault f) ∧
    (s.reaches src = true → s.reaches dst = true →
      ∃ v d, valueOf s src = .ok v ∧ valueOf s dst = .ok d ∧
        exec (.cmpq src dst) s = nextAt s { s with flags :=
          { of := decide ((¬ (d.toInt < 0 ↔ v.toInt < 0)
              ∧ ¬ ((wrap64 (d.toInt - v.toInt)).toInt < 0 ↔ d.toInt < 0)) ∨ v.toInt = -2 ^ 63)
            sf := decide ((wrap64 (d.toInt - v.toInt)).toInt < 0)
            zf := decide (wrap64 (d.toInt - v.toInt) = 0) } })

/-- The derived corner cases of 41_alu.md, for a register destination other than `Rip`: `OF` is true exactly when the
exact result does not fit or, for a subtraction, the source is `MIN` (where the exact result of a negative destination
fits); where `OF` is false the register holds the exact result. -/
def Obligations.OverflowMeansNoFitOrSubtractedMin : Prop :=
  ∀ (src : Operand) (r : Reg) (s t : State) (v : Word), r ≠ .rip → valueOf s src = .ok v →
    (exec (.addq src (.reg r)) s = .next t →
      (t.flags.of = true ↔ ¬ inRange ((s.reg r).toInt + v.toInt)) ∧
      (t.flags.of = false → (t.reg r).toInt = (s.reg r).toInt + v.toInt)) ∧
    (exec (.subq src (.reg r)) s = .next t →
      (t.flags.of = true ↔ ¬ inRange ((s.reg r).toInt - v.toInt) ∨ v.toInt = -2 ^ 63) ∧
      (t.flags.of = false → (t.reg r).toInt = (s.reg r).toInt - v.toInt)) ∧
    (exec (.imulq src (.reg r)) s = .next t →
      (t.flags.of = true ↔ ¬ inRange ((s.reg r).toInt * v.toInt)) ∧
      (t.flags.of = false → (t.reg r).toInt = (s.reg r).toInt * v.toInt)) ∧
    (exec (.incq (.reg r)) s = .next t →
      (t.flags.of = true ↔ (s.reg r).toInt = 2 ^ 63 - 1) ∧
      (t.flags.of = false → (t.reg r).toInt = (s.reg r).toInt + 1)) ∧
    (exec (.decq (.reg r)) s = .next t →
      (t.flags.of = true ↔ (s.reg r).toInt = -2 ^ 63) ∧
      (t.flags.of = false → (t.reg r).toInt = (s.reg r).toInt - 1)) ∧
    (exec (.negq (.reg r)) s = .next t →
      (t.flags.of = true ↔ ¬ inRange (-(s.reg r).toInt)) ∧
      (t.flags.of = false → (t.reg r).toInt = -(s.reg r).toInt))

/-! ## Shifts -/

/-- 42_shifts.md §1, §2. That the flag rules test the masked count is the spec's own decision (92_eei_decisions.md D7;
notes/assumptions/8.md). -/
def Obligations.ShlqShiftsLeft : Prop :=
  ShiftRule .shlq 0x2007 (fun d c => d <<< c) fun d => d.getLsbD 63 != d.getLsbD 62

/-- 42_shifts.md §1, §2: the result rounds toward minus infinity. The flag rules test the masked count
(92_eei_decisions.md D7; notes/assumptions/8.md). -/
def Obligations.SarqDividesRoundingDown : Prop :=
  ShiftRule .sarq 0x2008 (fun d c => wrap64 (d.toInt / 2 ^ c)) fun _ => false

/-- 42_shifts.md §1, §2: the vector is shifted as an unsigned number. The flag rules test the masked count
(92_eei_decisions.md D7; notes/assumptions/8.md). -/
def Obligations.ShrqShiftsInZeros : Prop :=
  ShiftRule .shrq 0x2009 (fun d c => BitVec.ofNat 64 (d.toNat / 2 ^ c)) fun d => d.getLsbD 63

/-! ## Stack -/

/-- 43_stack.md §2. That the operand sees the decremented `Rsp` is the spec's own decision (92_eei_decisions.md D9;
notes/assumptions/16.md). -/
def Obligations.PushqStoresBelowTheStackTop : Prop :=
  ∀ (src : Operand) (s : State),
    HeaderIs (.pushq src) 0x1010 ∧
    (∀ f, valueOf (pushed s) src = .error f → exec (.pushq src) s = .fault f) ∧
    (∀ v f, valueOf (pushed s) src = .ok v → memWrite (pushed s) ((pushed s).reg .rsp) v = .error f →
      exec (.pushq src) s = .fault f) ∧
    ((pushed s).reaches src = true → quadInWindow ((pushed s).reg .rsp) = true →
      ∃ v t, valueOf (pushed s) src = .ok v ∧ memWrite (pushed s) ((pushed s).reg .rsp) v = .ok t ∧
        exec (.pushq src) s = nextAt s t)

/-- 43_stack.md §2. That the destination's address sees the old `Rsp` is the spec's own decision
(92_eei_decisions.md D9; notes/assumptions/16.md). -/
def Obligations.PopqStoresTheStackTop : Prop :=
  ∀ (dst : Operand) (s : State),
    HeaderIs (.popq dst) 0x1011 ∧
    (dst.isImm = true → exec (.popq dst) s = .fault (.malformed .storeToImm)) ∧
    (∀ f, dst.isImm = false → memRead s (s.reg .rsp) = .error f → exec (.popq dst) s = .fault f) ∧
    (∀ v f, dst.isImm = false → memRead s (s.reg .rsp) = .ok v → store s dst v = .error f →
      exec (.popq dst) s = .fault f) ∧
    (dst.isImm = false → quadInWindow (s.reg .rsp) = true → s.reaches dst = true →
      ∃ v t, memRead s (s.reg .rsp) = .ok v ∧ store s dst v = .ok t ∧ exec (.popq dst) s = nextAt s (popped t))

/-- Which value of `Rsp` an operand of a stack instruction sees: the spec's own decision (92_eei_decisions.md D9;
notes/assumptions/16.md). -/
def Obligations.StackOperandsSeeRspInTheWrittenOrder : Prop :=
  ∀ s t : State,
    (exec (.pushq (.reg .rsp)) s = .next t → memRead t (t.reg .rsp) = .ok (wrap64 ((s.reg .rsp).toInt - 8))) ∧
    (∀ v, memRead s (s.reg .rsp) = .ok v → exec (.popq (.reg .rsp)) s = .next t →
      t.reg .rsp = wrap64 (v.toInt + 8)) ∧
    (∀ v, memRead s (s.reg .rsp) = .ok v → exec (.popq (.mem (.ind2 .rsp))) s = .next t →
      memRead t (s.reg .rsp) = .ok v ∧
      (∀ k < 8, t.cell ((s.reg .rsp).toNat + k) = .raw (v.extractLsb' (8 * k) 8)) ∧
      SameCellsOutside (s.reg .rsp) s t ∧ t.reg .rsp = wrap64 ((s.reg .rsp).toInt + 8)) ∧
    (exec (.callq (.mem (.ind2 .rsp))) s = .next t → t.reg .rip = wrap64 ((s.reg .rip).toInt + 8))

/-- 95_test_vectors.md UP4: a push and a pop that do not name `Rsp` leave `Rsp` and copy the value. -/
def Obligations.PushThenPopCopies : Prop :=
  ∀ (x y : Operand) (s t u : State),
    mentions .rsp x = false → mentions .rsp y = false → mentions .rip y = false →
    exec (.pushq x) s = .next t → exec (.popq y) t = .next u →
    u.reg .rsp = s.reg .rsp ∧ ∃ v, valueOf s x = .ok v ∧ valueOf u y = .ok v

/-! ## Control transfer -/

/-- 44_control.md §1: the condition table; and, derived there, what the conditions mean after `Cmpq` and how a source
`MIN` disturbs them. -/
def Obligations.ConditionsAfterCompareAreSigned : Prop :=
  (∀ fl : Flags,
    condHolds .eq fl = fl.zf ∧ condHolds .neq fl = !fl.zf ∧ condHolds .lt fl = (fl.sf != fl.of) ∧
    condHolds .le fl = ((fl.sf != fl.of) || fl.zf) ∧ condHolds .gt fl = ((fl.sf == fl.of) && !fl.zf) ∧
    condHolds .ge fl = (fl.sf == fl.of) ∧
    condHolds .neq fl = !condHolds .eq fl ∧ condHolds .ge fl = !condHolds .lt fl ∧
    condHolds .gt fl = !condHolds .le fl) ∧
  (∀ (src dst : Operand) (s t : State) (a b : Word), valueOf s src = .ok a → valueOf s dst = .ok b →
    exec (.cmpq src dst) s = .next t →
    (condHolds .eq t.flags = true ↔ b = a) ∧ (condHolds .neq t.flags = true ↔ b ≠ a) ∧
    (a.toInt ≠ -2 ^ 63 →
      (condHolds .lt t.flags = true ↔ b.toInt < a.toInt) ∧ (condHolds .le t.flags = true ↔ b.toInt ≤ a.toInt) ∧
      (condHolds .gt t.flags = true ↔ b.toInt > a.toInt) ∧ (condHolds .ge t.flags = true ↔ b.toInt ≥ a.toInt)) ∧
    (a.toInt = -2 ^ 63 → b.toInt < 0 →
      condHolds .lt t.flags = true ∧ condHolds .le t.flags = true ∧ condHolds .gt t.flags = false ∧
      condHolds .ge t.flags = false)) ∧
  (condHolds .neq State.reset.flags = true ∧ condHolds .gt State.reset.flags = true ∧
    condHolds .ge State.reset.flags = true ∧ condHolds .eq State.reset.flags = false ∧
    condHolds .lt State.reset.flags = false ∧ condHolds .le State.reset.flags = false)

/-- R161: the target is the value of the source, absolute and unchecked. -/
def Obligations.JmpSetsRip : Prop :=
  ∀ (src : Operand) (s : State),
    HeaderIs (.jmp src) 0x1014 ∧
    (∀ f, valueOf s src = .error f → exec (.jmp src) s = .fault f) ∧
    (s.reaches src = true → ∃ a, valueOf s src = .ok a ∧ exec (.jmp src) s = .next (s.setReg .rip a))

/-- 44_control.md §2. That an untaken jump does not evaluate its operand is the spec's own decision
(92_eei_decisions.md D12; notes/assumptions/18.md). -/
def Obligations.ConditionalJumps : Prop :=
  JumpRule .jEq 0x1015 (fun fl => fl.zf) ∧
  JumpRule .jNeq 0x1115 (fun fl => !fl.zf) ∧
  JumpRule .jLt 0x1215 (fun fl => fl.sf != fl.of) ∧
  JumpRule .jLe 0x1315 (fun fl => (fl.sf != fl.of) || fl.zf) ∧
  JumpRule .jGt 0x1415 (fun fl => (fl.sf == fl.of) && !fl.zf) ∧
  JumpRule .jGe 0x1515 (fun fl => fl.sf == fl.of)

/-- 44_control.md §3. That the operand is evaluated after the push is the spec's own decision (92_eei_decisions.md D9;
notes/assumptions/16.md). -/
def Obligations.CallqPushesTheReturnAddress : Prop :=
  ∀ (src : Operand) (s : State),
    HeaderIs (.callq src) 0x1012 ∧
    (∀ f, memWrite (pushed s) ((pushed s).reg .rsp) (wrap64 ((s.reg .rip).toInt + 8)) = .error f →
      exec (.callq src) s = .fault f) ∧
    (∀ t f, memWrite (pushed s) ((pushed s).reg .rsp) (wrap64 ((s.reg .rip).toInt + 8)) = .ok t →
      valueOf t src = .error f → exec (.callq src) s = .fault f) ∧
    (∀ t, memWrite (pushed s) ((pushed s).reg .rsp) (wrap64 ((s.reg .rip).toInt + 8)) = .ok t →
      t.reaches src = true → ∃ a, valueOf t src = .ok a ∧ exec (.callq src) s = .next (t.setReg .rip a))

/-- R170. -/
def Obligations.RetqPopsRip : Prop :=
  ∀ s : State,
    HeaderIs .retq 0x0013 ∧
    (∀ f, memRead s (s.reg .rsp) = .error f → exec .retq s = .fault f) ∧
    (quadInWindow (s.reg .rsp) = true →
      ∃ a, memRead s (s.reg .rsp) = .ok a ∧ exec .retq s = .next (popped (s.setReg .rip a)))

/-- 95_test_vectors.md UP5: a call followed at once by a return comes back to the instruction after the call. -/
def Obligations.CallThenRetReturns : Prop :=
  ∀ (src : Operand) (s t u : State), exec (.callq src) s = .next t → exec .retq t = .next u →
    u.reg .rip = wrap64 ((s.reg .rip).toInt + 8) ∧ u.reg .rsp = s.reg .rsp

/-- R171 to R177: all 64 bits are written. -/
def Obligations.ConditionalSets : Prop :=
  SetRule .setEq 0x1016 (fun fl => fl.zf) ∧
  SetRule .setNeq 0x1116 (fun fl => !fl.zf) ∧
  SetRule .setLt 0x1216 (fun fl => fl.sf != fl.of) ∧
  SetRule .setLe 0x1316 (fun fl => (fl.sf != fl.of) || fl.zf) ∧
  SetRule .setGt 0x1416 (fun fl => (fl.sf == fl.of) && !fl.zf) ∧
  SetRule .setGe 0x1516 (fun fl => fl.sf == fl.of)

/-! ## Frames -/

/-- Frame of the instructions that store their result to an operand (moves, arithmetic, logic, shifts, `Set`): every
register but that operand and `Rip`, the run status, and every cell outside the quadword at the operand's effective
address stay; a register operand leaves all of memory. -/
def Obligations.FrameOfOperandStores : Prop :=
  ∀ (i : Instr) (dst : Operand) (s t : State), storedOperand i = some dst → exec i s = .next t →
    (∀ r, r ≠ .rip → dst ≠ .reg r → t.reg r = s.reg r) ∧ t.status = s.status ∧
    (dst.isInd = false → SameCells s t) ∧
    (∀ m, dst = .mem m → SameCellsOutside (ea s m) s t)

/-- Frame of `Pushq` and `Callq`: every register but `Rsp` and `Rip`, the flags, the run status, and every cell
outside the quadword at the new `Rsp`. -/
def Obligations.FrameOfPushes : Prop :=
  ∀ (i : Instr) (src : Operand) (s t : State), i = .pushq src ∨ i = .callq src → exec i s = .next t →
    SameRegsExcept [.rsp, .rip] s t ∧ t.reg .rsp = wrap64 ((s.reg .rsp).toInt - 8) ∧
    t.flags = s.flags ∧ t.status = s.status ∧
    SameCellsOutside (wrap64 ((s.reg .rsp).toInt - 8)) s t

/-- Frame of `Popq`: every register but the destination, `Rsp` and `Rip`, the flags, the run status, and every cell
outside the destination's quadword, whose address is computed with the old `Rsp`. -/
def Obligations.FrameOfPopq : Prop :=
  ∀ (dst : Operand) (s t : State), exec (.popq dst) s = .next t →
    (∀ r, r ≠ .rip → r ≠ .rsp → dst ≠ .reg r → t.reg r = s.reg r) ∧
    (dst ≠ .reg .rsp → t.reg .rsp = wrap64 ((s.reg .rsp).toInt + 8)) ∧
    t.flags = s.flags ∧ t.status = s.status ∧
    (dst.isInd = false → SameCells s t) ∧
    (∀ m, dst = .mem m → SameCellsOutside (ea s m) s t)

/-- Frame of the instructions that store nothing (`Cmpq`, the jumps, `Retq`): every cell, the run status, and every
register but `Rip`, for `Retq` also but `Rsp`; the flags for all but `Cmpq`. -/
def Obligations.FrameOfNonStores : Prop :=
  ∀ (i : Instr) (s t : State), exec i s = .next t →
    ((∃ src dst, i = .cmpq src dst) → SameRegsExcept [.rip] s t ∧ SameCells s t ∧ t.status = s.status) ∧
    (isJump i = true → SameRegsExcept [.rip] s t ∧ SameCells s t ∧ t.flags = s.flags ∧ t.status = s.status) ∧
    (i = .retq → SameRegsExcept [.rsp, .rip] s t ∧ t.reg .rsp = wrap64 ((s.reg .rsp).toInt + 8) ∧
      SameCells s t ∧ t.flags = s.flags ∧ t.status = s.status)

/-- 10_state.md §3, of the table of who writes which flag: which instruction leaves which flag, and which clears `OF`.
What the other entries write is in the statement of each instruction. That a shift tests the masked count is the spec's
own decision (92_eei_decisions.md D7; notes/assumptions/8.md). -/
def Obligations.EachInstructionLeavesOrClearsTheseFlags : Prop :=
  ∀ (i : Instr) (s t : State), exec i s = .next t →
    (touchesNoFlag i → t.flags = s.flags) ∧
    ((∃ a b, i = .imulq a b) → t.flags.sf = s.flags.sf ∧ t.flags.zf = s.flags.zf) ∧
    ((∃ a b, i = .andq a b ∨ i = .orq a b ∨ i = .xorq a b) ∨ (∃ a, i = .notq a) → t.flags.of = false) ∧
    (∀ amt v, shiftAmount i = some amt → valueOf s amt = .ok v →
      (v.toNat % 64 = 0 → t.flags = s.flags) ∧ (v.toNat % 64 ≠ 1 → t.flags.of = s.flags.of))

/-- 10_state.md §2: every instruction but `Jmp`, a taken `J(cc)`, `Callq` and `Retq` leaves `Rip` at `ip + 8`, also
one that stores to `Rip` (the spec's own decision, 92_eei_decisions.md D10; notes/assumptions/17.md). -/
def Obligations.RipAdvancesByEightUnlessControl : Prop :=
  ∀ (i : Instr) (s t : State), exec i s = .next t →
    (¬ setsRip i → t.reg .rip = wrap64 ((s.reg .rip).toInt + 8)) ∧
    (∀ cc, condOf i = some cc → condHolds cc s.flags = false → t.reg .rip = wrap64 ((s.reg .rip).toInt + 8))

/-! ## Fault codes -/

/-- 60_exceptions.md §1: the fault kind a run gives back is that of the machine's run status after as many passes of
the run loop; it is 0 exactly without a fault, 1 for a `Segfault`, 2 for a `Malformed`; the causes number from 1 to 7.
The codes are the spec's own decision (92_eei_decisions.md D15; notes/assumptions/14.md); the bound on the steps is the
model's own (notes/assumptions/12.md). -/
def Obligations.RunGivesBackTheFaultKindOfItsStatus : Prop :=
  (∀ (s : State) n, (runLoop n s).faultKind = (tick^[n] s).status.faultKind) ∧
  (∀ (s : State) n, (runLoop n s).faultKind = 0 ↔ ∀ f, runLoop n s ≠ .fault f) ∧
  (∀ (s : State) n a, runLoop n s = .fault (.segfault a) →
    (runLoop n s).faultKind = 1 ∧ (tick^[n] s).status = .faulted (.segfault a)) ∧
  (∀ (s : State) n c, runLoop n s = .fault (.malformed c) →
    (runLoop n s).faultKind = 2 ∧ (tick^[n] s).status = .faulted (.malformed c)) ∧
  [Malformed.notInsHead, .badToken, .unresolvedLabel, .arity, .leaqSrcNotInd, .badShiftAmount, .storeToImm].map causeCode
    = [1, 2, 3, 4, 5, 6, 7]
end

