-- ==== Sys2Proof/Laws/Decode.lean ====
section
/-! SUPPORT. The fields of an assembled token, operand slots and register numbers there and back. -/

namespace Sys2Proof

theorem Reg.ofNum_num (r : Reg) : Reg.ofNum r.num = some r := by cases r <;> rfl

theorem Reg.num_lt (r : Reg) : r.num < 17 := by cases r <;> decide

theorem Reg.num_of_ofNum {n : Nat} {r : Reg} (h : Reg.ofNum n = some r) : r.num = n := by
  unfold Reg.ofNum at h
  split at h <;> cases h <;> rfl

/-- An operand's slot is read back as the operand. -/
theorem Operand.read_slot (o : Operand) : o.slot.read = .operand o := by
  have hn (r : Reg) : (BitVec.ofNat 8 r.num).toNat = r.num := by cases r <;> rfl
  rcases o with n | r | ⟨a | r | ⟨d, r⟩⟩ <;> simp [Operand.slot, Slot.read, hn, Reg.ofNum_num]

/-! ## Fields of `assemble` -/

theorem getLsbD_field (w : Nat) (x : BitVec w) (lo i : Nat) :
    (field w x lo).getLsbD i = (decide (i < 176) && !decide (i < lo) && x.getLsbD (i - lo)) := by
  by_cases h : i < 176
  · simp [field, h]
  · simp [field, h]

/-- A bit of a field is 0 outside the field's bits. -/
theorem getLsbD_field_outside {w : Nat} (x : BitVec w) {lo i : Nat} (h : i < lo ∨ lo + w ≤ i) :
    (field w x lo).getLsbD i = false := by
  rw [getLsbD_field]
  rcases h with h | h
  · simp [h]
  · simp [BitVec.getLsbD_of_ge x (i - lo) (by omega)]

/-- A bit of a field inside the field's bits. -/
theorem getLsbD_field_inside {w : Nat} (x : BitVec w) {lo : Nat} (j : Nat) (h : lo + w ≤ 176) (hj : j < w) :
    (field w x lo).getLsbD (lo + j) = x[j] := by
  rw [getLsbD_field]
  simp [show lo + j < 176 by omega, BitVec.getLsbD_eq_getElem hj]

theorem assemble_opc (opc : BitVec 8) (cc nops : BitVec 4) (s0 s1 : Slot) :
    (assemble opc cc nops s0 s1).opc = opc.toNat := by
  unfold Token.opc assemble
  congr 1
  ext i hi
  have h0 := getLsbD_field_inside opc (lo := 0) i (by omega) hi
  simp only [Nat.zero_add] at h0
  simp (disch := omega) only [BitVec.getElem_extractLsb', BitVec.getLsbD_or, getLsbD_field_outside, Nat.zero_add, h0,
    Bool.or_false]

theorem assemble_cc (opc : BitVec 8) (cc nops : BitVec 4) (s0 s1 : Slot) :
    (assemble opc cc nops s0 s1).cc = cc.toNat := by
  unfold Token.cc assemble
  congr 1
  ext i hi
  simp (disch := omega) only [BitVec.getElem_extractLsb', BitVec.getLsbD_or, getLsbD_field_outside, getLsbD_field_inside,
    Bool.or_false, Bool.false_or]

theorem assemble_nops (opc : BitVec 8) (cc nops : BitVec 4) (s0 s1 : Slot) :
    (assemble opc cc nops s0 s1).nops = nops.toNat := by
  unfold Token.nops assemble
  congr 1
  ext i hi
  simp (disch := omega) only [BitVec.getElem_extractLsb', BitVec.getLsbD_or, getLsbD_field_outside, getLsbD_field_inside,
    Bool.or_false, Bool.false_or]

theorem assemble_slot0 (opc : BitVec 8) (cc nops : BitVec 4) (s0 s1 : Slot) :
    (assemble opc cc nops s0 s1).slot 0 = s0 := by
  obtain ⟨k, r, v⟩ := s0
  simp only [Token.slot, assemble, Slot.mk.injEq]
  refine ⟨?_, ?_, ?_⟩ <;> ext i hi <;>
    simp (disch := omega) only [BitVec.getElem_extractLsb', BitVec.getLsbD_or, getLsbD_field_outside,
      getLsbD_field_inside, Bool.or_false, Bool.false_or, Nat.mul_zero, Nat.add_zero]

theorem assemble_slot1 (opc : BitVec 8) (cc nops : BitVec 4) (s0 s1 : Slot) :
    (assemble opc cc nops s0 s1).slot 1 = s1 := by
  obtain ⟨k, r, v⟩ := s1
  simp only [Token.slot, assemble, Slot.mk.injEq]
  refine ⟨?_, ?_, ?_⟩ <;> ext i hi <;>
    simp (disch := omega) only [BitVec.getElem_extractLsb', BitVec.getLsbD_or, getLsbD_field_outside,
      getLsbD_field_inside, Bool.or_false, Bool.false_or, Nat.mul_one, Nat.reduceAdd]

end Sys2Proof
end

