-- ==== Sys2Proof/Laws/State.lean ====
section
/-! SUPPORT. One lemma per field per update of the state, and the register file's read-after-write law. -/

namespace Sys2Proof.Machine

theorem Regs.get_set (f : Regs) (r q : Reg) (v : Word) :
    (f.set r v).get q = if q = r then v else f.get q := by
  cases r <;> cases q <;> rfl

theorem Regs.ext_get {f g : Regs} (h : ∀ r, f.get r = g.get r) : f = g := by
  cases f; cases g
  have := h .rax; have := h .rbx; have := h .rcx; have := h .rdx
  have := h .rsi; have := h .rdi; have := h .rbp; have := h .rsp
  have := h .r08; have := h .r09; have := h .r10; have := h .r11
  have := h .r12; have := h .r13; have := h .r14; have := h .r15
  have := h .rip
  simp only [Regs.get] at *
  subst_vars
  rfl

theorem Regs.set_get_self (f : Regs) (r : Reg) : f.set r (f.get r) = f := by
  cases r <;> rfl

/-! ## `setReg` -/

@[simp] theorem State.reg_setReg (s : State) (r q : Reg) (v : Word) :
    (s.setReg r v).reg q = if q = r then v else s.reg q := Regs.get_set _ _ _ _
@[simp] theorem State.flags_setReg (s : State) (r : Reg) (v : Word) : (s.setReg r v).flags = s.flags := rfl
@[simp] theorem State.mem_setReg (s : State) (r : Reg) (v : Word) : (s.setReg r v).mem = s.mem := rfl
@[simp] theorem State.status_setReg (s : State) (r : Reg) (v : Word) : (s.setReg r v).status = s.status := rfl
@[simp] theorem State.cell_setReg (s : State) (r : Reg) (v : Word) (a : Nat) : (s.setReg r v).cell a = s.cell a := rfl
@[simp] theorem State.cells_setReg (s : State) (r : Reg) (v : Word) (a n : Nat) :
    (s.setReg r v).cells a n = s.cells a n := rfl

/-! ## `setFlags` -/

@[simp] theorem State.regs_setFlags (s : State) (fl : Flags) : (s.setFlags fl).regs = s.regs := rfl
@[simp] theorem State.reg_setFlags (s : State) (fl : Flags) (q : Reg) : (s.setFlags fl).reg q = s.reg q := rfl
@[simp] theorem State.flags_setFlags (s : State) (fl : Flags) : (s.setFlags fl).flags = fl := rfl
@[simp] theorem State.mem_setFlags (s : State) (fl : Flags) : (s.setFlags fl).mem = s.mem := rfl
@[simp] theorem State.status_setFlags (s : State) (fl : Flags) : (s.setFlags fl).status = s.status := rfl
@[simp] theorem State.cell_setFlags (s : State) (fl : Flags) (a : Nat) : (s.setFlags fl).cell a = s.cell a := rfl
@[simp] theorem State.cells_setFlags (s : State) (fl : Flags) (a n : Nat) :
    (s.setFlags fl).cells a n = s.cells a n := rfl

/-! ## `setStatus` -/

@[simp] theorem State.regs_setStatus (s : State) (st : RunStatus) : (s.setStatus st).regs = s.regs := rfl
@[simp] theorem State.reg_setStatus (s : State) (st : RunStatus) (q : Reg) : (s.setStatus st).reg q = s.reg q := rfl
@[simp] theorem State.flags_setStatus (s : State) (st : RunStatus) : (s.setStatus st).flags = s.flags := rfl
@[simp] theorem State.mem_setStatus (s : State) (st : RunStatus) : (s.setStatus st).mem = s.mem := rfl
@[simp] theorem State.status_setStatus (s : State) (st : RunStatus) : (s.setStatus st).status = st := rfl
@[simp] theorem State.cell_setStatus (s : State) (st : RunStatus) (a : Nat) :
    (s.setStatus st).cell a = s.cell a := rfl

/-! ## `advance` -/

@[simp] theorem State.reg_advance (s : State) (ip : Word) (q : Reg) :
    (s.advance ip).reg q = if q = .rip then nextSlot ip else s.reg q := State.reg_setReg _ _ _ _
@[simp] theorem State.flags_advance (s : State) (ip : Word) : (s.advance ip).flags = s.flags := rfl
@[simp] theorem State.mem_advance (s : State) (ip : Word) : (s.advance ip).mem = s.mem := rfl
@[simp] theorem State.status_advance (s : State) (ip : Word) : (s.advance ip).status = s.status := rfl
@[simp] theorem State.cell_advance (s : State) (ip : Word) (a : Nat) : (s.advance ip).cell a = s.cell a := rfl

/-! ## `growStack`, `shrinkStack` -/

@[simp] theorem State.reg_growStack (s : State) (q : Reg) :
    s.growStack.reg q = if q = .rsp then wrap64 ((s.reg .rsp).toInt - Config.quad) else s.reg q :=
  State.reg_setReg _ _ _ _
@[simp] theorem State.flags_growStack (s : State) : s.growStack.flags = s.flags := rfl
@[simp] theorem State.mem_growStack (s : State) : s.growStack.mem = s.mem := rfl
@[simp] theorem State.status_growStack (s : State) : s.growStack.status = s.status := rfl
@[simp] theorem State.cell_growStack (s : State) (a : Nat) : s.growStack.cell a = s.cell a := rfl

@[simp] theorem State.reg_shrinkStack (s : State) (q : Reg) :
    s.shrinkStack.reg q = if q = .rsp then wrap64 ((s.reg .rsp).toInt + Config.quad) else s.reg q :=
  State.reg_setReg _ _ _ _
@[simp] theorem State.flags_shrinkStack (s : State) : s.shrinkStack.flags = s.flags := rfl
@[simp] theorem State.mem_shrinkStack (s : State) : s.shrinkStack.mem = s.mem := rfl
@[simp] theorem State.status_shrinkStack (s : State) : s.shrinkStack.status = s.status := rfl
@[simp] theorem State.cell_shrinkStack (s : State) (a : Nat) : s.shrinkStack.cell a = s.cell a := rfl

end Sys2Proof.Machine
end

