-- ==== Sys2Proof/Laws/Memory.lean ====
section
/-! SUPPORT. What the memory operations do: read after write, the canonical form, the quadword primitives. -/

namespace Sys2Proof.Machine

/-! ## One cell -/

theorem Memory.find_put (m : Memory) (a b : Nat) (c : SymByte) :
    (m.put a c).find b = if b = a then some c else m.find b := by
  induction m with
  | nil => simp [Memory.put, Memory.find]
  | cons p rest ih =>
    obtain ⟨x, d⟩ := p
    simp only [Memory.put]
    split_ifs with h1 h2 h3 h3 <;> simp only [Memory.find, ih] <;> split_ifs <;> first | rfl | omega

theorem Memory.wfFrom_mono {m : Memory} {lo lo' : Nat} (h : lo' ≤ lo) (hw : m.wfFrom lo = true) :
    m.wfFrom lo' = true := by
  cases m with
  | nil => rfl
  | cons p rest =>
    simp only [Memory.wfFrom, Bool.and_eq_true, decide_eq_true_eq] at hw ⊢
    exact ⟨⟨h.trans hw.1.1, hw.1.2⟩, hw.2⟩

theorem Memory.wfFrom_put {m : Memory} {lo a : Nat} (c : SymByte) (hlo : lo ≤ a) (ha : a < Config.memTop)
    (hw : m.wfFrom lo = true) : (m.put a c).wfFrom lo = true := by
  induction m generalizing lo with
  | nil => simp [Memory.put, Memory.wfFrom, hlo, ha]
  | cons p rest ih =>
    obtain ⟨x, d⟩ := p
    simp only [Memory.wfFrom, Bool.and_eq_true, decide_eq_true_eq] at hw
    obtain ⟨⟨hx, hxt⟩, hr⟩ := hw
    simp only [Memory.put]
    split_ifs with h1 h2
    · simp [Memory.wfFrom, hlo, ha, hxt, hr, Nat.succ_le_of_lt h1]
    · subst h2; simp [Memory.wfFrom, hlo, ha, hr]
    · have : x + 1 ≤ a := by omega
      simp [Memory.wfFrom, hx, hxt, ih this hr]

/-- Writing a cell of the window keeps the canonical form. -/
theorem Memory.wf_put {m : Memory} {a : Nat} (c : SymByte) (hb : Config.memBot ≤ a) (ha : a < Config.memTop)
    (hw : m.wf = true) : (m.put a c).wf = true := Memory.wfFrom_put c hb ha hw

/-! ## Consecutive cells -/

theorem Memory.find_putAll (m : Memory) (a b : Nat) (cs : List SymByte) :
    (m.putAll a cs).find b = if a ≤ b ∧ b < a + cs.length then cs[b - a]? else m.find b := by
  induction cs generalizing m a with
  | nil => simp [Memory.putAll]
  | cons c cs ih =>
    simp only [Memory.putAll, ih, Memory.find_put, List.length_cons]
    rcases Nat.lt_trichotomy b a with h | h | h
    · simp [show ¬ a ≤ b by omega, show ¬ a + 1 ≤ b by omega, show ¬ b = a by omega]
    · subst h; simp
    · obtain ⟨k, rfl⟩ : ∃ k, b = a + 1 + k := ⟨b - (a + 1), by omega⟩
      have e : a + 1 + k - a = k + 1 := by omega
      by_cases hk : k < cs.length
      · simp [e, show a + 1 + k < a + 1 + cs.length by omega, show a ≤ a + 1 + k by omega,
          show a + 1 + k < a + (cs.length + 1) by omega]
      · simp [show ¬ a + 1 + k < a + 1 + cs.length by omega, show ¬ a + 1 + k < a + (cs.length + 1) by omega,
          show ¬ a + 1 + k = a by omega]

theorem Memory.wf_putAll {m : Memory} {a : Nat} (cs : List SymByte) (hb : Config.memBot ≤ a)
    (ha : a + cs.length ≤ Config.memTop) (hw : m.wf = true) : (m.putAll a cs).wf = true := by
  induction cs generalizing m a with
  | nil => exact hw
  | cons c cs ih =>
    simp only [List.length_cons] at ha
    exact ih (by omega) (by omega) (Memory.wf_put c hb (by omega) hw)

/-! ## The window -/

theorem toInt_of_le {a : Word} (h : 0 ≤ a.toInt) : a.toInt = (a.toNat : Int) := by
  rw [BitVec.toInt_eq_toNat_cond] at *
  split at * <;> omega

theorem quadInWindow_iff (a : Word) :
    quadInWindow a = true ↔ Config.memBot ≤ a.toNat ∧ a.toNat + Config.quad ≤ Config.memTop := by
  have hlt := a.isLt
  unfold quadInWindow
  rw [decide_eq_true_iff]
  simp only [Config.memBot, Config.memTop, Config.memSize, Config.quad, BitVec.toInt_eq_toNat_cond]
  split <;> omega

/-- The window test on the address read as a signed and as an unsigned number (R33). -/
theorem inWindow_toInt_iff {a : Word} :
    (Config.memBot ≤ a.toNat ∧ a.toNat < Config.memTop) ↔ (0x400000 ≤ a.toInt ∧ a.toInt < 0x410000) := by
  have := a.isLt
  simp only [Config.memBot, Config.memTop, Config.memSize, BitVec.toInt_eq_toNat_cond]
  split <;> omega

/-- The same for the eight addresses of a quadword (R36). -/
theorem quadInWindow_toInt_iff {a : Word} :
    quadInWindow a = true ↔ (0x400000 ≤ a.toInt ∧ a.toInt ≤ 0x40FFF8) := by
  rw [quadInWindow_iff]
  have := a.isLt
  simp only [Config.memBot, Config.memTop, Config.memSize, Config.quad, BitVec.toInt_eq_toNat_cond]
  split <;> omega

theorem index_ok_iff (a : Word) (k : Nat) :
    index a = .ok k ↔ (Config.memBot ≤ a.toNat ∧ a.toNat < Config.memTop) ∧ k = a.toNat - Config.memBot := by
  have hlt := a.isLt
  simp only [index, Config.memBot, Config.memTop, Config.memSize, BitVec.toInt_eq_toNat_cond]
  split_ifs with h1 h2 h2 <;> simp <;> omega

theorem index_error_iff (a : Word) (f : Fault) :
    index a = .error f ↔ ¬ (Config.memBot ≤ a.toNat ∧ a.toNat < Config.memTop) ∧ f = .segfault a := by
  have hlt := a.isLt
  simp only [index, Config.memBot, Config.memTop, Config.memSize, BitVec.toInt_eq_toNat_cond]
  split_ifs with h1 h2 h2 <;> simp [eq_comm] <;> omega

/-! ## Quadwords -/

@[simp] theorem serialize_length (v : Word) : (serialize v).length = Config.quad := by
  simp [serialize]

theorem serialize_getElem? (v : Word) {i : Nat} (h : i < Config.quad) :
    (serialize v)[i]? = some (.raw (v.extractLsb' (8 * i) 8)) := by
  simp [serialize, h]

/-- Byte `i` of what the cells hold (R35). -/
theorem getLsbD_deserialize (cs : List SymByte) (i j : Nat) (hi : i < 8) (hj : j < 8) :
    (deserialize cs).getLsbD (8 * i + j) = ((cs[i]?.map dataByte).getD 0).getLsbD j := by
  induction cs generalizing i with
  | nil => simp [deserialize]
  | cons c cs ih =>
    simp only [deserialize, BitVec.getLsbD_or, BitVec.getLsbD_shiftLeft, BitVec.getLsbD_setWidth]
    cases i with
    | zero => simp [hj, show j < 64 by omega]
    | succ i =>
      have e : 8 * (i + 1) + j - 8 = 8 * i + j := by omega
      rw [e, ih i (by omega)]
      have h3 : (dataByte c).getLsbD (8 * (i + 1) + j) = false := BitVec.getLsbD_of_ge _ _ (by omega)
      simp [h3, show 8 * (i + 1) + j < 64 by omega, show ¬ 8 * (i + 1) + j < 8 by omega]

/-- Byte `i` of what the cells hold, as a byte (R35). -/
theorem extract_deserialize (cs : List SymByte) (i : Nat) (hi : i < 8) :
    (deserialize cs).extractLsb' (8 * i) 8 = (cs[i]?.map dataByte).getD 0 := by
  ext j hj
  simp only [BitVec.getElem_extractLsb', getLsbD_deserialize cs i j hi hj, BitVec.getLsbD_eq_getElem hj]

/-- Two words with the same eight bytes are equal. -/
theorem word_ext {v w : Word} (h : ∀ i < 8, v.extractLsb' (8 * i) 8 = w.extractLsb' (8 * i) 8) : v = w := by
  ext k hk
  have := congrArg (·.getLsbD (k % 8)) (h (k / 8) (by omega))
  simpa [Nat.mod_lt, Nat.div_add_mod, BitVec.getLsbD_eq_getElem hk] using this

theorem cells_getElem? (s : State) (a n : Nat) {i : Nat} (h : i < n) : (s.cells a n)[i]? = some (s.cell (a + i)) := by
  simp [State.cells, h]

/-- R51: reading back the eight cells of a value gives the value. -/
theorem deserialize_of_raw {cs : List SymByte} {v : Word}
    (h : ∀ i < 8, cs[i]? = some (.raw (v.extractLsb' (8 * i) 8))) : deserialize cs = v := by
  apply word_ext
  intro i hi
  rw [extract_deserialize cs i hi, h i hi]
  rfl

/-- A cell after consecutive cells were written. -/
theorem cell_putAll (s : State) (a b : Nat) (cs : List SymByte) :
    State.cell { s with mem := s.mem.putAll a cs } b =
      if a ≤ b ∧ b < a + cs.length then (cs[b - a]?).getD (fillCell b) else s.cell b := by
  simp only [State.cell, Memory.find_putAll]
  split_ifs <;> rfl

/-- Everything a quadword read can do (R36). -/
theorem memRead_cases (s : State) (a : Word) :
    (quadInWindow a = true ∧ memRead s a = .ok (deserialize (s.cells a.toNat Config.quad))) ∨
      (quadInWindow a = false ∧ memRead s a = .error (.segfault a)) := by
  unfold memRead
  cases quadInWindow a <;> simp

/-- Everything a quadword write that succeeds does (R37, R49). -/
theorem memWrite_ok {s t : State} {a v : Word} (h : memWrite s a v = .ok t) :
    quadInWindow a = true ∧ t.regs = s.regs ∧ t.flags = s.flags ∧ t.status = s.status ∧
      (∀ i < 8, t.cell (a.toNat + i) = .raw (v.extractLsb' (8 * i) 8)) ∧
      (∀ x, x < a.toNat ∨ a.toNat + Config.quad ≤ x → t.cell x = s.cell x) ∧
      (s.mem.wf = true → t.mem.wf = true) := by
  unfold memWrite at h
  split at h
  case isFalse => cases h
  case isTrue hq =>
    cases h
    refine ⟨hq, rfl, rfl, rfl, ?_, ?_, ?_⟩
    · intro i hi
      rw [cell_putAll]
      rw [if_pos ⟨by omega, by simpa [Config.quad] using hi⟩, Nat.add_sub_cancel_left, serialize_getElem? v hi]
      rfl
    · intro x hx
      rw [cell_putAll, if_neg]
      simp only [serialize_length]
      omega
    · intro hw
      obtain ⟨h1, h2⟩ := (quadInWindow_iff a).mp hq
      exact Memory.wf_putAll _ h1 (by simpa using h2) hw

theorem memWrite_of_inWindow {a : Word} (s : State) (v : Word) (h : quadInWindow a = true) :
    ∃ t, memWrite s a v = .ok t := ⟨_, if_pos h⟩

theorem memWrite_error {s : State} {a v : Word} {f : Fault} (h : memWrite s a v = .error f) :
    quadInWindow a = false ∧ f = .segfault a := by
  unfold memWrite at h
  split at h <;> cases h
  exact ⟨Bool.eq_false_iff.mpr ‹_›, rfl⟩

theorem memRead_error {s : State} {a : Word} {f : Fault} (h : memRead s a = .error f) :
    quadInWindow a = false ∧ f = .segfault a := by
  unfold memRead at h
  split at h <;> cases h
  exact ⟨Bool.eq_false_iff.mpr ‹_›, rfl⟩

/-- A quadword read depends on the eight cells alone. -/
theorem memRead_congr {s t : State} (a : Word) (h : ∀ i < 8, t.cell (a.toNat + i) = s.cell (a.toNat + i)) :
    memRead t a = memRead s a := by
  have : t.cells a.toNat Config.quad = s.cells a.toNat Config.quad := by
    apply List.map_congr_left
    intro i hi
    exact h i (List.mem_range.mp hi)
  unfold memRead
  rw [this]

/-- R43: a write followed by a read of the same address gives the written value. -/
theorem memRead_memWrite {s t : State} {a v : Word} (h : memWrite s a v = .ok t) : memRead t a = .ok v := by
  obtain ⟨hq, -, -, -, hin, -, -⟩ := memWrite_ok h
  rcases memRead_cases t a with ⟨-, hr⟩ | ⟨hf, -⟩
  · rw [hr, deserialize_of_raw]
    intro i hi
    rw [cells_getElem? _ _ _ (show i < Config.quad from hi), hin i hi]
  · simp [hq] at hf

end Sys2Proof.Machine
end

