-- ==== Sys2Proof/Laws/Operands.lean ====
section
/-! SUPPORT. What the operand resolver can do (R90 to R93): one lemma for a value read, one for a store. -/

namespace Sys2Proof.Machine

/-! ## `Except` computations -/

theorem bind_ok {α β : Type} {x : Except Fault α} {f : α → Except Fault β} {b : β} :
    (x >>= f) = .ok b ↔ ∃ a, x = .ok a ∧ f a = .ok b := by
  cases x <;> simp [bind, Except.bind]

theorem bind_error {α β : Type} {x : Except Fault α} {f : α → Except Fault β} {e : Fault} :
    (x >>= f) = .error e ↔ x = .error e ∨ ∃ a, x = .ok a ∧ f a = .error e := by
  cases x <;> simp [bind, Except.bind]

theorem return_ok {α : Type} {a b : α} : (return a : Except Fault α) = .ok b ↔ a = b := by
  simp [pure, Except.pure]

theorem return_error {α : Type} {a : α} {e : Fault} : (return a : Except Fault α) = .error e ↔ False := by
  simp [pure, Except.pure]

/-! ## Value read -/

theorem valueOf_of_reaches {s : State} {o : Operand} (h : s.reaches o = true) : ∃ v, valueOf s o = .ok v := by
  cases o with
  | imm n => exact ⟨_, rfl⟩
  | reg r => exact ⟨_, rfl⟩
  | mem m => exact ⟨_, if_pos h⟩

theorem reaches_of_valueOf {s : State} {o : Operand} {v : Word} (h : valueOf s o = .ok v) : s.reaches o = true := by
  cases o with
  | imm n => rfl
  | reg r => rfl
  | mem m =>
    rcases memRead_cases s (ea s m) with ⟨hq, -⟩ | ⟨-, hr⟩
    · exact hq
    · simp [valueOf, hr] at h

/-- The one way a value read fails (R92). -/
theorem valueOf_error {s : State} {o : Operand} {f : Fault} (h : valueOf s o = .error f) :
    ∃ m, o = .mem m ∧ quadInWindow (ea s m) = false ∧ f = .segfault (ea s m) := by
  cases o with
  | imm n => cases h
  | reg r => cases h
  | mem m => exact ⟨m, rfl, memRead_error h⟩

@[simp] theorem ea_setFlags (s : State) (fl : Flags) (m : Indirect) : ea (s.setFlags fl) m = ea s m := by
  cases m <;> rfl

@[simp] theorem reaches_setFlags (s : State) (fl : Flags) (o : Operand) : (s.setFlags fl).reaches o = s.reaches o := by
  cases o <;> simp [State.reaches]

@[simp] theorem valueOf_setFlags (s : State) (fl : Flags) (o : Operand) : valueOf (s.setFlags fl) o = valueOf s o := by
  cases o with
  | imm n => rfl
  | reg r => rfl
  | mem m => simp only [valueOf, ea_setFlags]; rfl

/-! ## Store -/

theorem store_of_reaches {s : State} {o : Operand} (v : Word) (hi : o.isImm = false) (h : s.reaches o = true) :
    ∃ t, store s o v = .ok t := by
  cases o with
  | imm n => cases hi
  | reg r => exact ⟨_, rfl⟩
  | mem m => exact memWrite_of_inWindow s v h

/-- Everything a store that succeeds does (R93). -/
theorem store_ok {s t : State} {o : Operand} {v : Word} (h : store s o v = .ok t) :
    o.isImm = false ∧ s.reaches o = true ∧ t.flags = s.flags ∧ t.status = s.status ∧
      (∀ r, t.reg r = if o = .reg r then v else s.reg r) ∧
      (o.isInd = false → t.mem = s.mem) ∧
      (∀ m, o = .mem m → memWrite s (ea s m) v = .ok t) ∧
      (s.mem.wf = true → t.mem.wf = true) := by
  cases o with
  | imm n => cases h
  | reg r =>
    cases h
    refine ⟨rfl, rfl, rfl, rfl, ?_, fun _ => rfl, ?_, id⟩
    · intro q; simp [eq_comm]
    · intro m hm; cases hm
  | mem m =>
    obtain ⟨hq, hr, hf, hs, -, -, hw⟩ := memWrite_ok h
    refine ⟨rfl, hq, hf, hs, ?_, ?_, ?_, hw⟩
    · intro q; simp [State.reg, hr]
    · intro hm; cases hm
    · rintro m' ⟨⟩; exact h

/-- The ways a store fails (R93). -/
theorem store_error {s : State} {o : Operand} {v : Word} {f : Fault} (h : store s o v = .error f) :
    (o.isImm = true ∧ f = .malformed .storeToImm) ∨
      ∃ m, o = .mem m ∧ quadInWindow (ea s m) = false ∧ f = .segfault (ea s m) := by
  cases o with
  | imm n => cases h; exact .inl ⟨rfl, rfl⟩
  | reg r => cases h
  | mem m => exact .inr ⟨m, rfl, memWrite_error h⟩

/-- The cells after a store: those of the stored quadword are `Raw`, all others are as before. -/
theorem store_cells {s t : State} {o : Operand} {v : Word} (h : store s o v = .ok t) (x : Nat) :
    t.cell x = s.cell x ∨ ∃ b, t.cell x = .raw b := by
  obtain ⟨-, -, -, -, -, hn, hm, -⟩ := store_ok h
  cases o with
  | imm n => cases h
  | reg r => left; cases h; rfl
  | mem m =>
    obtain ⟨-, -, -, -, hin, hout, -⟩ := memWrite_ok (hm m rfl)
    by_cases hx : x < (ea s m).toNat ∨ (ea s m).toNat + Config.quad ≤ x
    · exact .inl (hout x hx)
    · right
      simp only [Config.quad] at hx
      have := hin (x - (ea s m).toNat) (by omega)
      rw [show (ea s m).toNat + (x - (ea s m).toNat) = x by omega] at this
      exact ⟨_, this⟩

end Sys2Proof.Machine
end

