-- ==== Sys2Proof/Laws/Exec.lean ====
section
/-! SUPPORT. Inversion lemmas: what `dispatch` and the shared effects of the meanings can do, and what every instruction
keeps. -/

namespace Sys2Proof.Machine

/-! ## `dispatch` -/

theorem dispatch_next {i : Instr} {e : Except Fault State} {t : State} :
    dispatch i e = .next t ↔ shapeFault i = none ∧ e = .ok t := by
  unfold dispatch
  cases shapeFault i <;> cases e <;> simp [finish, raise]

theorem dispatch_fault {i : Instr} {e : Except Fault State} {f : Fault} :
    dispatch i e = .fault f ↔
      (∃ c, shapeFault i = some c ∧ f = .malformed c) ∨ (shapeFault i = none ∧ e = .error f) := by
  unfold dispatch
  cases shapeFault i <;> cases e <;> simp [finish, raise, eq_comm]

theorem dispatch_ne_refused {i : Instr} {e : Except Fault State} {r : Refusal} : dispatch i e ≠ .refused r := by
  unfold dispatch
  cases shapeFault i <;> cases e <;> simp [finish, raise]

/-- Every meaning is a `dispatch` of its instruction (R70 steps 3 to 5). -/
theorem exec_is_dispatch (i : Instr) (s : State) : ∃ e, exec i s = dispatch i e := by
  cases i <;> exact ⟨_, rfl⟩

/-! ## Shared effects -/

theorem updateBy_ok {op : AluOp} {src dst : Operand} {s t : State} :
    updateBy op src dst s = .ok t ↔ ∃ v d u, valueOf s src = .ok v ∧ valueOf s dst = .ok d ∧
      store (s.setFlags (flagEngine op d v s.flags)) dst (aluResult op d v) = .ok u ∧
      t = u.advance (s.reg .rip) := by
  simp only [updateBy, bind_ok, return_ok]
  constructor
  · rintro ⟨v, hv, d, hd, u, hu, rfl⟩; exact ⟨v, d, u, hv, hd, hu, rfl⟩
  · rintro ⟨v, d, u, hv, hd, hu, rfl⟩; exact ⟨v, hv, d, hd, u, hu, rfl⟩

theorem updateAlone_ok {op : AluOp} {v : Word} {dst : Operand} {s t : State} :
    updateAlone op v dst s = .ok t ↔ ∃ d u, valueOf s dst = .ok d ∧
      store (s.setFlags (flagEngine op d v s.flags)) dst (aluResult op d v) = .ok u ∧
      t = u.advance (s.reg .rip) := by
  simp only [updateAlone, bind_ok, return_ok]
  constructor
  · rintro ⟨d, hd, u, hu, rfl⟩; exact ⟨d, u, hd, hu, rfl⟩
  · rintro ⟨d, u, hd, hu, rfl⟩; exact ⟨d, hd, u, hu, rfl⟩

theorem jumpTo_ok {src : Operand} {s t : State} :
    jumpTo src s = .ok t ↔ ∃ a, valueOf s src = .ok a ∧ t = s.setReg .rip a := by
  simp only [jumpTo, bind_ok, return_ok]
  constructor <;> (rintro ⟨a, ha, rfl⟩; exact ⟨a, ha, rfl⟩)

theorem jumpIf_ok {cc : Cond} {src : Operand} {s t : State} :
    jumpIf cc src s = .ok t ↔ (condHolds cc s.flags = true ∧ ∃ a, valueOf s src = .ok a ∧ t = s.setReg .rip a) ∨
      (condHolds cc s.flags = false ∧ t = s.advance (s.reg .rip)) := by
  unfold jumpIf
  cases condHolds cc s.flags with
  | true => simp [jumpTo_ok]
  | false => simp [eq_comm (a := t)]

theorem setIf_ok {cc : Cond} {dst : Operand} {s t : State} :
    setIf cc dst s = .ok t ↔ ∃ u, store s dst (if condHolds cc s.flags then 1 else 0) = .ok u ∧
      t = u.advance (s.reg .rip) := by
  simp only [setIf, bind_ok, return_ok]
  constructor <;> (rintro ⟨a, ha, rfl⟩; exact ⟨a, ha, rfl⟩)

/-! ## What every instruction keeps -/

/-- The run status stays, the canonical form stays, and a cell stays or becomes `Raw`. -/
structure Keeps (s t : State) : Prop where
  status : t.status = s.status
  wf : s.mem.wf = true → t.mem.wf = true
  cells : ∀ x, t.cell x = s.cell x ∨ ∃ b, t.cell x = .raw b

theorem Keeps.refl (s : State) : Keeps s s := ⟨rfl, id, fun _ => .inl rfl⟩

theorem Keeps.trans {s t u : State} (h : Keeps s t) (k : Keeps t u) : Keeps s u where
  status := k.status.trans h.status
  wf := k.wf ∘ h.wf
  cells x := by
    rcases k.cells x with hx | hx
    · rw [hx]; exact h.cells x
    · exact .inr hx

theorem Keeps.setReg (s : State) (r : Reg) (v : Word) : Keeps s (s.setReg r v) := ⟨rfl, id, fun _ => .inl rfl⟩
theorem Keeps.setFlags (s : State) (fl : Flags) : Keeps s (s.setFlags fl) := ⟨rfl, id, fun _ => .inl rfl⟩
theorem Keeps.advance (s : State) (ip : Word) : Keeps s (s.advance ip) := Keeps.setReg _ _ _
theorem Keeps.growStack (s : State) : Keeps s s.growStack := Keeps.setReg _ _ _
theorem Keeps.shrinkStack (s : State) : Keeps s s.shrinkStack := Keeps.setReg _ _ _

theorem Keeps.store {s t : State} {o : Operand} {v : Word} (h : store s o v = .ok t) : Keeps s t := by
  obtain ⟨-, -, -, hs, -, -, -, hw⟩ := store_ok h
  exact ⟨hs, hw, store_cells h⟩

theorem Keeps.memWrite {s t : State} {a v : Word} (h : memWrite s a v = .ok t) : Keeps s t :=
  Keeps.store (o := .mem (.ind1 a)) h

theorem updateBy_keeps {op : AluOp} {src dst : Operand} {s t : State} (h : updateBy op src dst s = .ok t) :
    Keeps s t := by
  obtain ⟨v, d, u, -, -, hu, rfl⟩ := updateBy_ok.mp h
  exact ((Keeps.setFlags _ _).trans (.store hu)).trans (.advance _ _)

theorem updateAlone_keeps {op : AluOp} {v : Word} {dst : Operand} {s t : State}
    (h : updateAlone op v dst s = .ok t) : Keeps s t := by
  obtain ⟨d, u, -, hu, rfl⟩ := updateAlone_ok.mp h
  exact ((Keeps.setFlags _ _).trans (.store hu)).trans (.advance _ _)

theorem jumpTo_keeps {src : Operand} {s t : State} (h : jumpTo src s = .ok t) : Keeps s t := by
  obtain ⟨a, -, rfl⟩ := jumpTo_ok.mp h
  exact .setReg _ _ _

theorem jumpIf_keeps {cc : Cond} {src : Operand} {s t : State} (h : jumpIf cc src s = .ok t) : Keeps s t := by
  rcases jumpIf_ok.mp h with ⟨-, a, -, rfl⟩ | ⟨-, rfl⟩
  · exact .setReg _ _ _
  · exact .advance _ _

theorem setIf_keeps {cc : Cond} {dst : Operand} {s t : State} (h : setIf cc dst s = .ok t) : Keeps s t := by
  obtain ⟨u, hu, rfl⟩ := setIf_ok.mp h
  exact (Keeps.store hu).trans (.advance _ _)

theorem execMovq_keeps {src dst : Operand} {s t : State} (h : execMovq src dst s = .next t) : Keeps s t := by
  simp only [execMovq, dispatch_next, bind_ok, return_ok] at h
  obtain ⟨-, v, -, u, hu, rfl⟩ := h
  exact (Keeps.store hu).trans (.advance _ _)

theorem execLeaq_keeps {src dst : Operand} {s t : State} (h : execLeaq src dst s = .next t) : Keeps s t := by
  obtain ⟨-, h⟩ := dispatch_next.mp h
  cases src with
  | imm n => cases h
  | reg r => cases h
  | mem m =>
    simp only [bind_ok, return_ok] at h
    obtain ⟨u, hu, rfl⟩ := h
    exact (Keeps.store hu).trans (.advance _ _)

theorem execCmpq_keeps {src dst : Operand} {s t : State} (h : execCmpq src dst s = .next t) : Keeps s t := by
  simp only [execCmpq, dispatch_next, bind_ok, return_ok] at h
  obtain ⟨-, v, -, d, -, rfl⟩ := h
  exact (Keeps.setFlags _ _).trans (.advance _ _)

theorem execPushq_keeps {src : Operand} {s t : State} (h : execPushq src s = .next t) : Keeps s t := by
  simp only [execPushq, dispatch_next, bind_ok, return_ok] at h
  obtain ⟨-, v, -, u, hu, rfl⟩ := h
  exact ((Keeps.growStack s).trans (.memWrite hu)).trans (.advance _ _)

theorem execPopq_keeps {dst : Operand} {s t : State} (h : execPopq dst s = .next t) : Keeps s t := by
  simp only [execPopq, dispatch_next, bind_ok, return_ok] at h
  obtain ⟨-, v, -, u, hu, rfl⟩ := h
  exact ((Keeps.store hu).trans (.shrinkStack u)).trans (.advance _ _)

theorem execCallq_keeps {src : Operand} {s t : State} (h : execCallq src s = .next t) : Keeps s t := by
  simp only [execCallq, dispatch_next, bind_ok, return_ok] at h
  obtain ⟨-, u, hu, a, -, rfl⟩ := h
  exact ((Keeps.growStack s).trans (.memWrite hu)).trans (.setReg _ _ _)

theorem execRetq_keeps {s t : State} (h : execRetq s = .next t) : Keeps s t := by
  simp only [execRetq, dispatch_next, bind_ok, return_ok] at h
  obtain ⟨-, a, -, rfl⟩ := h
  exact (Keeps.setReg _ _ _).trans (.shrinkStack _)

/-- Whatever the instruction, an execution that completes keeps the run status and the canonical form of memory, and
changes cells only into `Raw` ones. -/
theorem exec_keeps {i : Instr} {s t : State} (h : exec i s = .next t) : Keeps s t := by
  cases i with
  | movq src dst => exact execMovq_keeps h
  | leaq src dst => exact execLeaq_keeps h
  | cmpq src dst => exact execCmpq_keeps h
  | pushq src => exact execPushq_keeps h
  | popq dst => exact execPopq_keeps h
  | callq src => exact execCallq_keeps h
  | retq => exact execRetq_keeps h
  | addq src dst | subq src dst | imulq src dst | xorq src dst | orq src dst | andq src dst | shlq src dst
  | sarq src dst | shrq src dst =>
    simp only [exec, execAddq, execSubq, execImulq, execXorq, execOrq, execAndq, execShlq, execSarq, execShrq,
      dispatch_next] at h
    exact updateBy_keeps h.2
  | incq dst | decq dst | notq dst | negq dst =>
    simp only [exec, execIncq, execDecq, execNotq, execNegq, dispatch_next] at h
    exact updateAlone_keeps h.2
  | jmp src =>
    simp only [exec, execJmp, dispatch_next] at h
    exact jumpTo_keeps h.2
  | jEq src | jNeq src | jLt src | jLe src | jGt src | jGe src =>
    simp only [exec, execJEq, execJNeq, execJLt, execJLe, execJGt, execJGe, dispatch_next] at h
    exact jumpIf_keeps h.2
  | setEq dst | setNeq dst | setLt dst | setLe dst | setGt dst | setGe dst =>
    simp only [exec, execSetEq, execSetNeq, execSetLt, execSetLe, execSetGt, execSetGe, dispatch_next] at h
    exact setIf_keeps h.2

/-! ## How an execution faults -/

/-- A `Segfault` of an address whose quadword is not wholly in the window. -/
def IsAccessFault (f : Fault) : Prop := ∃ a, quadInWindow a = false ∧ f = .segfault a

theorem isAccessFault_memRead {s : State} {a : Word} {f : Fault} (h : memRead s a = .error f) : IsAccessFault f :=
  ⟨a, memRead_error h⟩

theorem isAccessFault_memWrite {s : State} {a v : Word} {f : Fault} (h : memWrite s a v = .error f) :
    IsAccessFault f := ⟨a, memWrite_error h⟩

theorem isAccessFault_valueOf {s : State} {o : Operand} {f : Fault} (h : valueOf s o = .error f) :
    IsAccessFault f := by
  obtain ⟨m, -, h⟩ := valueOf_error h
  exact ⟨_, h⟩

theorem isAccessFault_store {s : State} {o : Operand} {v : Word} {f : Fault} (hi : o.isImm = false)
    (h : store s o v = .error f) : IsAccessFault f := by
  rcases store_error h with ⟨hi', -⟩ | ⟨m, -, h⟩
  · simp [hi] at hi'
  · exact ⟨_, h⟩

theorem isImm_of_storeShape {dst : Operand} (h : storeShape dst = none) : dst.isImm = false := by
  cases dst <;> simp_all [storeShape, Operand.isImm]

theorem isImm_of_shiftShape {amt dst : Operand} (h : shiftShape amt dst = none) : dst.isImm = false := by
  unfold shiftShape at h
  split at h
  · exact isImm_of_storeShape h
  · cases h

theorem updateBy_fault {op : AluOp} {src dst : Operand} {s : State} {f : Fault} (hi : dst.isImm = false)
    (h : updateBy op src dst s = .error f) : IsAccessFault f := by
  simp only [updateBy, bind_error, return_error, and_false, exists_false, or_false] at h
  rcases h with h | ⟨v, -, h | ⟨d, -, h⟩⟩
  · exact isAccessFault_valueOf h
  · exact isAccessFault_valueOf h
  · exact isAccessFault_store hi h

theorem updateAlone_fault {op : AluOp} {v : Word} {dst : Operand} {s : State} {f : Fault} (hi : dst.isImm = false)
    (h : updateAlone op v dst s = .error f) : IsAccessFault f := by
  simp only [updateAlone, bind_error, return_error, and_false, exists_false, or_false] at h
  rcases h with h | ⟨d, -, h⟩
  · exact isAccessFault_valueOf h
  · exact isAccessFault_store hi h

theorem jumpTo_fault {src : Operand} {s : State} {f : Fault} (h : jumpTo src s = .error f) : IsAccessFault f := by
  simp only [jumpTo, bind_error, return_error, and_false, exists_false, or_false] at h
  exact isAccessFault_valueOf h

theorem jumpIf_fault {cc : Cond} {src : Operand} {s : State} {f : Fault} (h : jumpIf cc src s = .error f) :
    IsAccessFault f := by
  unfold jumpIf at h
  split at h
  · exact jumpTo_fault h
  · cases h

theorem setIf_fault {cc : Cond} {dst : Operand} {s : State} {f : Fault} (hi : dst.isImm = false)
    (h : setIf cc dst s = .error f) : IsAccessFault f := by
  simp only [setIf, bind_error, return_error, and_false, exists_false, or_false] at h
  exact isAccessFault_store hi h

/-- Whatever the instruction, an execution that faults was refused by the shape check or made an access outside the
window (R194). -/
theorem exec_fault {i : Instr} {s : State} {f : Fault} (h : exec i s = .fault f) :
    (∃ c, shapeFault i = some c ∧ f = .malformed c) ∨ (shapeFault i = none ∧ IsAccessFault f) := by
  cases i with
  | movq src dst =>
    simp only [exec, execMovq, dispatch_fault, bind_error, return_error, and_false, exists_false, or_false] at h
    refine h.imp_right fun ⟨hs, h⟩ => ⟨hs, ?_⟩
    rcases h with h | ⟨v, -, h⟩
    · exact isAccessFault_valueOf h
    · exact isAccessFault_store (isImm_of_storeShape hs) h
  | leaq src dst =>
    simp only [exec, execLeaq, dispatch_fault] at h
    refine h.imp_right fun ⟨hs, h⟩ => ⟨hs, ?_⟩
    cases src with
    | imm n => simp [shapeFault, leaqShape, Operand.isInd] at hs
    | reg r => simp [shapeFault, leaqShape, Operand.isInd] at hs
    | mem m =>
      simp only [bind_error, return_error, and_false, exists_false, or_false] at h
      exact isAccessFault_store (isImm_of_storeShape hs) h
  | cmpq src dst =>
    simp only [exec, execCmpq, dispatch_fault, bind_error, return_error, and_false, exists_false, or_false] at h
    refine h.imp_right fun ⟨hs, h⟩ => ⟨hs, ?_⟩
    rcases h with h | ⟨v, -, h⟩ <;> exact isAccessFault_valueOf h
  | pushq src =>
    simp only [exec, execPushq, dispatch_fault, bind_error, return_error, and_false, exists_false, or_false] at h
    refine h.imp_right fun ⟨hs, h⟩ => ⟨hs, ?_⟩
    rcases h with h | ⟨v, -, h⟩
    · exact isAccessFault_valueOf h
    · exact isAccessFault_memWrite h
  | popq dst =>
    simp only [exec, execPopq, dispatch_fault, bind_error, return_error, and_false, exists_false, or_false] at h
    refine h.imp_right fun ⟨hs, h⟩ => ⟨hs, ?_⟩
    rcases h with h | ⟨v, -, h⟩
    · exact isAccessFault_memRead h
    · exact isAccessFault_store (isImm_of_storeShape hs) h
  | callq src =>
    simp only [exec, execCallq, dispatch_fault, bind_error, return_error, and_false, exists_false, or_false] at h
    refine h.imp_right fun ⟨hs, h⟩ => ⟨hs, ?_⟩
    rcases h with h | ⟨v, -, h⟩
    · exact isAccessFault_memWrite h
    · exact isAccessFault_valueOf h
  | retq =>
    simp only [exec, execRetq, dispatch_fault, bind_error, return_error, and_false, exists_false, or_false] at h
    exact h.imp_right fun ⟨hs, h⟩ => ⟨hs, isAccessFault_memRead h⟩
  | addq src dst | subq src dst | imulq src dst | xorq src dst | orq src dst | andq src dst =>
    simp only [exec, execAddq, execSubq, execImulq, execXorq, execOrq, execAndq, dispatch_fault] at h
    exact h.imp_right fun ⟨hs, h⟩ => ⟨hs, updateBy_fault (isImm_of_storeShape hs) h⟩
  | shlq src dst | sarq src dst | shrq src dst =>
    simp only [exec, execShlq, execSarq, execShrq, dispatch_fault] at h
    exact h.imp_right fun ⟨hs, h⟩ => ⟨hs, updateBy_fault (isImm_of_shiftShape hs) h⟩
  | incq dst | decq dst | notq dst | negq dst =>
    simp only [exec, execIncq, execDecq, execNotq, execNegq, dispatch_fault] at h
    exact h.imp_right fun ⟨hs, h⟩ => ⟨hs, updateAlone_fault (isImm_of_storeShape hs) h⟩
  | jmp src =>
    simp only [exec, execJmp, dispatch_fault] at h
    exact h.imp_right fun ⟨hs, h⟩ => ⟨hs, jumpTo_fault h⟩
  | jEq src | jNeq src | jLt src | jLe src | jGt src | jGe src =>
    simp only [exec, execJEq, execJNeq, execJLt, execJLe, execJGt, execJGe, dispatch_fault] at h
    exact h.imp_right fun ⟨hs, h⟩ => ⟨hs, jumpIf_fault h⟩
  | setEq dst | setNeq dst | setLt dst | setLe dst | setGt dst | setGe dst =>
    simp only [exec, execSetEq, execSetNeq, execSetLt, execSetLe, execSetGt, execSetGe, dispatch_fault] at h
    exact h.imp_right fun ⟨hs, h⟩ => ⟨hs, setIf_fault (isImm_of_storeShape hs) h⟩

end Sys2Proof.Machine
end

