-- ==== Sys2Proof/Laws/PerInstr.lean ====
section
/-! SUPPORT. Statements about every instruction as syntax, one lemma per constructor. -/

namespace Sys2Proof.Laws.ShapeCheck

/-- The ordered shape check (R67, R196) accepts exactly the well-formed instructions. -/
def Statement (i : Instr) : Prop := shapeFault i = none ↔ i.wellFormed = true

theorem storeShape_iff (dst : Operand) : storeShape dst = none ↔ (!dst.isImm) = true := by
  cases dst <;> simp [storeShape, Operand.isImm]

theorem shiftShape_iff (amt dst : Operand) : shiftShape amt dst = none ↔ (amt.isCount && !dst.isImm) = true := by
  unfold shiftShape
  cases amt.isCount <;> simp [storeShape_iff]

theorem leaqShape_iff (src dst : Operand) : leaqShape src dst = none ↔ (src.isInd && !dst.isImm) = true := by
  unfold leaqShape
  cases src.isInd <;> simp [storeShape_iff]

theorem movq (a b : Operand) : Statement (.movq a b) := storeShape_iff b
theorem addq (a b : Operand) : Statement (.addq a b) := storeShape_iff b
theorem subq (a b : Operand) : Statement (.subq a b) := storeShape_iff b
theorem imulq (a b : Operand) : Statement (.imulq a b) := storeShape_iff b
theorem xorq (a b : Operand) : Statement (.xorq a b) := storeShape_iff b
theorem orq (a b : Operand) : Statement (.orq a b) := storeShape_iff b
theorem andq (a b : Operand) : Statement (.andq a b) := storeShape_iff b
theorem shlq (a b : Operand) : Statement (.shlq a b) := shiftShape_iff a b
theorem sarq (a b : Operand) : Statement (.sarq a b) := shiftShape_iff a b
theorem shrq (a b : Operand) : Statement (.shrq a b) := shiftShape_iff a b
theorem incq (a : Operand) : Statement (.incq a) := storeShape_iff a
theorem decq (a : Operand) : Statement (.decq a) := storeShape_iff a
theorem notq (a : Operand) : Statement (.notq a) := storeShape_iff a
theorem negq (a : Operand) : Statement (.negq a) := storeShape_iff a
theorem leaq (a b : Operand) : Statement (.leaq a b) := leaqShape_iff a b
theorem cmpq (a b : Operand) : Statement (.cmpq a b) := ⟨fun _ => rfl, fun _ => rfl⟩
theorem pushq (a : Operand) : Statement (.pushq a) := ⟨fun _ => rfl, fun _ => rfl⟩
theorem popq (a : Operand) : Statement (.popq a) := storeShape_iff a
theorem callq (a : Operand) : Statement (.callq a) := ⟨fun _ => rfl, fun _ => rfl⟩
theorem retq : Statement .retq := ⟨fun _ => rfl, fun _ => rfl⟩
theorem jmp (a : Operand) : Statement (.jmp a) := ⟨fun _ => rfl, fun _ => rfl⟩
theorem jEq (a : Operand) : Statement (.jEq a) := ⟨fun _ => rfl, fun _ => rfl⟩
theorem jNeq (a : Operand) : Statement (.jNeq a) := ⟨fun _ => rfl, fun _ => rfl⟩
theorem jLt (a : Operand) : Statement (.jLt a) := ⟨fun _ => rfl, fun _ => rfl⟩
theorem jLe (a : Operand) : Statement (.jLe a) := ⟨fun _ => rfl, fun _ => rfl⟩
theorem jGt (a : Operand) : Statement (.jGt a) := ⟨fun _ => rfl, fun _ => rfl⟩
theorem jGe (a : Operand) : Statement (.jGe a) := ⟨fun _ => rfl, fun _ => rfl⟩
theorem setEq (a : Operand) : Statement (.setEq a) := storeShape_iff a
theorem setNeq (a : Operand) : Statement (.setNeq a) := storeShape_iff a
theorem setLt (a : Operand) : Statement (.setLt a) := storeShape_iff a
theorem setLe (a : Operand) : Statement (.setLe a) := storeShape_iff a
theorem setGt (a : Operand) : Statement (.setGt a) := storeShape_iff a
theorem setGe (a : Operand) : Statement (.setGe a) := storeShape_iff a

end Sys2Proof.Laws.ShapeCheck
end

