-- ==== Sys2Proof/Laws/Run.lean ====
section
/-! SUPPORT. Where a run has ended it stays (R20, R178), and the fault kinds of R193. -/

namespace Sys2Proof.Machine

@[simp] theorem RunStatus.faultKind_running : RunStatus.running.faultKind = 0 := rfl
@[simp] theorem RunStatus.faultKind_halted : RunStatus.halted.faultKind = 0 := rfl
@[simp] theorem RunStatus.faultKind_faulted (f : Fault) : (RunStatus.faulted f).faultKind = f.kindCode := rfl

@[simp] theorem RunEnd.faultKind_ok (v : Word) (s : State) : (RunEnd.ok v s).faultKind = 0 := rfl
@[simp] theorem RunEnd.faultKind_fault (f : Fault) : (RunEnd.fault f).faultKind = f.kindCode := rfl
@[simp] theorem RunEnd.faultKind_outOfFuel (s : State) : (RunEnd.outOfFuel s).faultKind = 0 := rfl

/-- No fault has the kind 0, none. -/
theorem Fault.kindCode_ne_zero (f : Fault) : f.kindCode ≠ 0 := by cases f <;> simp [Fault.kindCode]

/-- The host's code of an ending is the machine's. -/
theorem ending_faultKind (s : State) : (ending s).faultKind = s.status.faultKind := by
  unfold ending
  cases s.status <;> rfl

theorem tick_halted {s : State} (h : s.status = .halted) : tick s = s := by simp [tick, step, h]

theorem tick_faulted {s : State} {f : Fault} (h : s.status = .faulted f) : tick s = s := by
  cases s
  simp_all [tick, step, State.setStatus]

/-- A run that has ended stays where it is. -/
theorem tick_ended {s : State} (h : s.status ≠ .running) : tick s = s := by
  cases hs : s.status with
  | running => exact absurd hs h
  | halted => exact tick_halted hs
  | faulted f => exact tick_faulted hs

theorem runLoop_ended {s : State} (n : Nat) (h : s.status ≠ .running) : runLoop n s = ending s := by
  cases n with
  | zero => rfl
  | succ n => cases hs : s.status <;> simp_all [runLoop]

theorem runLoop_running {s : State} (n : Nat) (h : s.status = .running) :
    runLoop (n + 1) s = runLoop n (tick s) := by simp [runLoop, h]

end Sys2Proof.Machine
end

