-- ==== Sys2Proof/Laws/Step.lean ====
section
/-! SUPPORT. Inversion of fetch and of the step (R40, R70). -/

namespace Sys2Proof.Machine

/-- Everything a fetch can do (R40). -/
theorem fetch_ok {s : State} {a : Word} {t : Token} :
    fetch s a = .ok t ↔
      (Config.memBot ≤ a.toNat ∧ a.toNat < Config.memTop) ∧ s.cell a.toNat = .insHead t := by
  unfold fetch
  cases hi : index a with
  | error f =>
    have h := ((index_error_iff a f).mp hi).1
    simp only [reduceCtorEq, false_iff]
    exact fun hc => h hc.1
  | ok k =>
    have h := ((index_ok_iff a k).mp hi).1
    cases hc : s.cell a.toNat <;> simp [h]

theorem fetchDecode_ok {s : State} {i : Instr} :
    fetchDecode s = .ok i ↔ ∃ t, fetch s (s.reg .rip) = .ok t ∧ decode t = .ok i := by
  unfold fetchDecode
  cases fetch s (s.reg .rip) with
  | error f => simp
  | ok t => cases hd : decode t <;> simp [hd]

/-- Everything a step that answers a next state can have done. -/
theorem step_next {s t : State} (h : step s = .next t) :
    (s.status = .halted ∧ t = s) ∨
      (s.status = .running ∧ s.reg .rip = Config.exitAddr ∧ t = s.setStatus .halted) ∨
      (s.status = .running ∧ s.reg .rip ≠ Config.exitAddr ∧ ∃ i, fetchDecode s = .ok i ∧ exec i s = .next t) := by
  unfold step at h
  split at h
  · cases h; exact .inl ⟨‹_›, rfl⟩
  · cases h
  · rename_i hr
    split at h
    · cases h; exact .inr (.inl ⟨hr, ‹_›, rfl⟩)
    · split at h
      · cases h
      · exact .inr (.inr ⟨hr, ‹_›, _, ‹_›, h⟩)

end Sys2Proof.Machine
end

