-- ==== Sys2Proof/Tests/Slice0.lean ====
section
/-! SUPPORT. Tests: the well-formedness smoke test, decoding of written-out tokens, one step of every instruction on a small
state, and a witness for the hypotheses of every obligation. Expected results are from 95_test_vectors.md (the section is
named) or from the rule named. -/

namespace Sys2Proof.Tests

open Sys2Proof Sys2Proof.Machine Sys2Proof.Machine.Claims

/-! ## Helpers -/

def nextOf : Answer → Option State
  | .next t => some t
  | .fault _ => none
  | .refused _ => none

def faultOf : Answer → Option Fault
  | .next _ => none
  | .fault f => some f
  | .refused _ => none

def causeOf : Except Malformed Instr → Option Malformed
  | .ok _ => none
  | .error c => some c

/-- The three flags in the order of 95_test_vectors.md. -/
def flags (o s z : Bool) : Flags := ⟨o, s, z⟩

/-- The reset state with these flags. -/
def start (o s z : Bool) : State := State.reset.setFlags (flags o s z)

/-- The state with a quadword written. -/
def quad (s : State) (a v : Word) : State := ((memWrite s a v).toOption).getD s

def regAfter (i : Instr) (s : State) (r : Reg) : Option Word := (nextOf (exec i s)).map (·.reg r)
def flagsAfter (i : Instr) (s : State) : Option Flags := (nextOf (exec i s)).map (·.flags)
def quadAfter (i : Instr) (s : State) (a : Word) : Option Word := (nextOf (exec i s)).bind fun t => (memRead t a).toOption
def faultAfter (i : Instr) (s : State) : Option Fault := faultOf (exec i s)

/-- `OP %Rbx, %Rax` with these values, from these flags: the new `Rax` and the new flags. -/
def onRax (mk : Operand → Operand → Instr) (d s : Word) (old : Flags) : Option (Word × Flags) :=
  (nextOf (exec (mk (.reg .rbx) (.reg .rax)) ((State.reset.setFlags old |>.setReg .rax d).setReg .rbx s))).map
    fun t => (t.reg .rax, t.flags)

/-- `OP %Rax` with this value, from flags `1 1 1`. -/
def onRax1 (mk : Operand → Instr) (d : Word) : Option (Word × Flags) :=
  (nextOf (exec (mk (.reg .rax)) ((start true true true).setReg .rax d))).map fun t => (t.reg .rax, t.flags)

/-- `OP $amt, %Rax` with these values, from these flags. -/
def shiftRax (mk : Operand → Operand → Instr) (d amt : Word) (old : Flags) : Option (Word × Flags) :=
  (nextOf (exec (mk (.imm amt) (.reg .rax)) (State.reset.setFlags old |>.setReg .rax d))).map
    fun t => (t.reg .rax, t.flags)

/-! ## Well-formedness: an ill-formed term for each check (R67) -/

theorem test_wellFormed_storeToImm :
    Instr.wellFormed (.movq (.imm 5) (.imm 6)) = false ∧ Instr.wellFormed (.addq (.reg .rax) (.imm 1)) = false ∧
    Instr.wellFormed (.subq (.reg .rax) (.imm 1)) = false ∧ Instr.wellFormed (.imulq (.reg .rax) (.imm 1)) = false ∧
    Instr.wellFormed (.xorq (.reg .rax) (.imm 1)) = false ∧ Instr.wellFormed (.orq (.reg .rax) (.imm 1)) = false ∧
    Instr.wellFormed (.andq (.reg .rax) (.imm 1)) = false ∧ Instr.wellFormed (.shlq (.imm 1) (.imm 1)) = false ∧
    Instr.wellFormed (.sarq (.imm 1) (.imm 1)) = false ∧ Instr.wellFormed (.shrq (.imm 1) (.imm 1)) = false ∧
    Instr.wellFormed (.leaq (.mem (.ind2 .rax)) (.imm 1)) = false ∧ Instr.wellFormed (.incq (.imm 5)) = false ∧
    Instr.wellFormed (.decq (.imm 5)) = false ∧ Instr.wellFormed (.notq (.imm 5)) = false ∧
    Instr.wellFormed (.negq (.imm 5)) = false ∧ Instr.wellFormed (.popq (.imm 5)) = false ∧
    Instr.wellFormed (.setEq (.imm 5)) = false ∧ Instr.wellFormed (.setNeq (.imm 5)) = false ∧
    Instr.wellFormed (.setLt (.imm 5)) = false ∧ Instr.wellFormed (.setLe (.imm 5)) = false ∧
    Instr.wellFormed (.setGt (.imm 5)) = false ∧ Instr.wellFormed (.setGe (.imm 5)) = false := by decide

theorem test_wellFormed_shiftCount :
    Instr.wellFormed (.shlq (.reg .rbx) (.reg .rax)) = false ∧
    Instr.wellFormed (.sarq (.mem (.ind2 .rcx)) (.reg .rax)) = false ∧
    Instr.wellFormed (.shrq (.mem (.ind1 0x400100#64)) (.reg .rax)) = false ∧
    Instr.wellFormed (.shlq (.reg .rcx) (.reg .rax)) = true := by decide

theorem test_wellFormed_leaqSource :
    Instr.wellFormed (.leaq (.imm 5) (.reg .rax)) = false ∧ Instr.wellFormed (.leaq (.reg .rax) (.reg .rbx)) = false ∧
    Instr.wellFormed (.leaq (.mem (.ind1 5)) (.reg .rax)) = true := by decide

/-- R67: forms that are accepted although real x86 refuses them. -/
theorem test_wellFormed_accepts :
    Instr.wellFormed (.cmpq (.reg .rax) (.imm 5)) = true ∧ Instr.wellFormed (.pushq (.imm 1)) = true ∧
    Instr.wellFormed (.imulq (.imm 3) (.mem (.ind1 0x400100#64))) = true ∧
    Instr.wellFormed (.movq (.mem (.ind2 .rax)) (.mem (.ind2 .rbx))) = true ∧
    Instr.wellFormed (.jmp (.mem (.ind2 .rax))) = true := by decide

/-! ## Decoding of written-out tokens (95_test_vectors.md §1.1, §2.2, Part 3; where no token is printed there, R61 to R65) -/

theorem test_decode_moves :
    decodeTableWord 176 0x00000000000000000001000000000000002A00002000 = some (.movq (.imm 42) (.reg .rax)) ∧
    decodeTableWord 176 0x00000000000000000301000000000000000101042000
      = some (.movq (.mem (.ind3 1 .rbx)) (.reg .rdx)) ∧
    decodeTableWord 176 0x00000000004000190002FFFFFFFFFFFFFFFF00002000
      = some (.movq (.imm 0xFFFFFFFFFFFFFFFF#64) (.mem (.ind1 0x400019#64))) ∧
    decodeTableWord 176 0x0000000000000000020100000000000000081004200E
      = some (.leaq (.mem (.ind3 8 .rip)) (.reg .rcx)) := by decide

theorem test_decode_arithmetic :
    decodeTableWord 176 0x00000000000000000001000000000000000002012001 = some (.addq (.reg .rcx) (.reg .rax)) ∧
    decodeTableWord 176 0x00000000000000000001000000000000000001012002 = some (.subq (.reg .rbx) (.reg .rax)) ∧
    decodeTableWord 176 0x00000000000000000001000000000000000801042003
      = some (.imulq (.mem (.ind3 8 .rbx)) (.reg .rax)) ∧
    decodeTableWord 176 0x0000000000000000000100000000000000000101200F = some (.cmpq (.reg .rbx) (.reg .rax)) ∧
    decodeTableWord 176 0x0000000000000000000000000000000000000001100A = some (.incq (.reg .rax)) ∧
    decodeTableWord 176 0x0000000000000000000000000000000000000201100B = some (.decq (.reg .rcx)) ∧
    decodeTableWord 176 0x0000000000000000000000000000000000000001100D = some (.negq (.reg .rax)) := by decide

/-- R61, R62: `Rbx` to `R15`, headers `0x2004`, `0x2005`, `0x2006`; `Notq %R08`, header `0x100C`. -/
theorem test_decode_logic :
    decodeTableWord 176 0x00000000000000000F01000000000000000001012004 = some (.xorq (.reg .rbx) (.reg .r15)) ∧
    decodeTableWord 176 0x00000000000000000F01000000000000000001012005 = some (.orq (.reg .rbx) (.reg .r15)) ∧
    decodeTableWord 176 0x00000000000000000F01000000000000000001012006 = some (.andq (.reg .rbx) (.reg .r15)) ∧
    decodeTableWord 176 0x0000000000000000000000000000000000000801100C = some (.notq (.reg .r08)) := by decide

theorem test_decode_shifts :
    decodeTableWord 176 0x00000000000000000001000000000000000002012007 = some (.shlq (.reg .rcx) (.reg .rax)) ∧
    decodeTableWord 176 0x00000000000000000301000000000000000400002008 = some (.sarq (.imm 4) (.reg .rdx)) ∧
    decodeTableWord 176 0x00000000000000000001000000000000000100002009 = some (.shrq (.imm 1) (.reg .rax)) := by decide

theorem test_decode_stack :
    decodeTableWord 176 0x00000000000000000000000000000000000006011010 = some (.pushq (.reg .rbp)) ∧
    decodeTableWord 176 0x00000000000000000000000000000000000000011011 = some (.popq (.reg .rax)) ∧
    decodeTableWord 176 0x00000000000000000000000000000040001800001012 = some (.callq (.imm 0x400018#64)) ∧
    decodeTableWord 176 0x00000000000000000000000000000000000000000013 = some .retq := by decide

theorem test_decode_jumps :
    decodeTableWord 176 0x0000000000000000000000000000000FDEAD00001014 = some (.jmp (.imm 0xFDEAD#64)) ∧
    decodeTableWord 176 0x00000000000000000000000000000040002000001015 = some (.jEq (.imm 0x400020#64)) ∧
    decodeTableWord 176 0x00000000000000000000000000000040001000001115 = some (.jNeq (.imm 0x400010#64)) ∧
    decodeTableWord 176 0x00000000000000000000000000000040001000001215 = some (.jLt (.imm 0x400010#64)) ∧
    decodeTableWord 176 0x00000000000000000000000000000040003800001315 = some (.jLe (.imm 0x400038#64)) ∧
    decodeTableWord 176 0x00000000000000000000000000000040001800001415 = some (.jGt (.imm 0x400018#64)) ∧
    decodeTableWord 176 0x00000000000000000000000000000040001000001515 = some (.jGe (.imm 0x400010#64)) := by decide

theorem test_decode_sets :
    decodeTableWord 176 0x00000000000000000000000000000000000001011016 = some (.setEq (.reg .rbx)) ∧
    decodeTableWord 176 0x00000000000000000000000000000000000001011116 = some (.setNeq (.reg .rbx)) ∧
    decodeTableWord 176 0x00000000000000000000000000000000000002011216 = some (.setLt (.reg .rcx)) ∧
    decodeTableWord 176 0x00000000000000000000000000000000000001011316 = some (.setLe (.reg .rbx)) ∧
    decodeTableWord 176 0x00000000000000000000000000000000000001011416 = some (.setGt (.reg .rbx)) ∧
    decodeTableWord 176 0x00000000000000000000000000000000000003011516 = some (.setGe (.reg .rdx)) := by decide

/-- The words of a table row, all operand bits zero: every operand is `$0`. -/
theorem test_decode_zero_operands :
    decodeTableWord 16 0x2000 = some (.movq (.imm 0) (.imm 0)) ∧ decodeTableWord 16 0x0013 = some .retq ∧
    decodeTableWord 16 0x1516 = some (.setGe (.imm 0)) := by decide

/-- The first group of 95_test_vectors.md §2.2. -/
theorem test_decode_badToken :
    causeOf (decode 0x00000000000000000000000000000000000000000017#176) = some .badToken ∧
    causeOf (decode 0x00000000000000000001000000000000000500002100#176) = some .badToken ∧
    causeOf (decode 0x00000000000000000000000000000040000000001615#176) = some .badToken ∧
    causeOf (decode 0x00000000000000000001000000000000000500003000#176) = some .badToken ∧
    causeOf (decode 0x00000000000000000000000000000000000000081014#176) = some .badToken ∧
    causeOf (decode 0x0000000000000000000000000000000000001101100A#176) = some .badToken ∧
    causeOf (decode 0x00000000000000000000000000000040000001001014#176) = some .badToken ∧
    causeOf (decode 0x0000000000000000000000000000000000010001100A#176) = some .badToken ∧
    causeOf (decode 0x0000000000000000000100000000000000000001100A#176) = some .badToken ∧
    causeOf (decode 0x00000000000000000000000000000000000100000013#176) = some .badToken ∧
    causeOf (decode 0x00000000000000000000000000000000000100051014#176) = some .badToken := by decide

/-- The second and third groups of 95_test_vectors.md §2.2. -/
theorem test_decode_label_and_arity :
    causeOf (decode 0x00000000000000000000000000000000000000051014#176) = some .unresolvedLabel ∧
    causeOf (decode 0x00000000000000000001000000000000000000062000#176) = some .unresolvedLabel ∧
    causeOf (decode 0x00000000000000000107000000000000000000012000#176) = some .unresolvedLabel ∧
    causeOf (decode 0x00000000000000000000000000000000000000011000#176) = some .arity ∧
    causeOf (decode 0x00000000000000000000000000000000000000001013#176) = some .arity ∧
    causeOf (decode 0x0000000000000000000100000000000000010000200A#176) = some .arity ∧
    causeOf (decode 0x00000000000000000000000000000000000000000014#176) = some .arity := by decide

/-- The encoder writes the tokens that 95_test_vectors.md prints. -/
theorem test_encode :
    encode (.movq (.reg .rdi) (.mem (.ind3 0xFFFFFFFFFFFFFFF8#64 .rbp)))
      = 0xFFFFFFFFFFFFFFF80604000000000000000005012000#176 ∧
    encode (.jGt (.imm 0x400018#64)) = 0x00000000000000000000000000000040001800001415#176 ∧
    encode .retq = 0x00000000000000000000000000000000000000000013#176 := by decide

/-! ## Memory (95_test_vectors.md §2.1) -/

theorem test_serialize :
    serialize 0x0102030405060708#64 = [.raw 8, .raw 7, .raw 6, .raw 5, .raw 4, .raw 3, .raw 2, .raw 1] ∧
    serialize 0xFFFFFFFFFFFFFFFD#64
      = [.raw 0xFD, .raw 0xFF, .raw 0xFF, .raw 0xFF, .raw 0xFF, .raw 0xFF, .raw 0xFF, .raw 0xFF] := by decide

theorem test_deserialize_nonRaw :
    deserialize [.raw 0x11, .insTail, .raw 0x33, .insHead 0x13, .raw 0x55, .raw 0x66, .insTail, .raw 0x88]
      = 0x8800665500330011#64 := by decide

theorem test_admission :
    quadInWindow 0x3FFFFF#64 = false ∧ quadInWindow 0x3FFFF9#64 = false ∧ quadInWindow 0x400000#64 = true ∧
    quadInWindow 0x400001#64 = true ∧ quadInWindow 0x40FFF8#64 = true ∧ quadInWindow 0x40FFF9#64 = false ∧
    quadInWindow 0x410000#64 = false ∧ quadInWindow 0xFFFFFFFFFFFFFFF8#64 = false ∧
    fetchable 0x40FFFF#64 = true ∧ fetchable 0x410000#64 = false ∧ fetchable 0x3FFFFF#64 = false := by decide

/-- Equal memories are equal data: the order of two writes does not show. -/
theorem test_memory_canonical :
    quad (quad State.reset 0x400100#64 1) 0x400000#64 2 = quad (quad State.reset 0x400000#64 2) 0x400100#64 1 ∧
    (quad State.reset 0x40FFF8#64 7).mem.wf = true ∧ Memory.wf [(0x410000, .raw 0)] = false ∧
    Memory.wf [(0x400001, .raw 0), (0x400000, .raw 0)] = false ∧ Memory.wf [(0x3FFFFF, .raw 0)] = false := by decide

/-! ## One step of every instruction -/

/-- §2.3, row 1 and the row of overlapping memory operands. -/
theorem test_movq :
    regAfter (.movq (.imm 0xFFFFFFFFFFFFFFFE#64) (.reg .r08)) (start true false true) .r08
      = some 0xFFFFFFFFFFFFFFFE#64 ∧
    flagsAfter (.movq (.imm 0xFFFFFFFFFFFFFFFE#64) (.reg .r08)) (start true false true)
      = some (flags true false true) ∧
    quadAfter (.movq (.mem (.ind1 0x400100#64)) (.mem (.ind1 0x400104#64)))
      (quad (quad State.reset 0x400108#64 0) 0x400100#64 0x1122334455667788#64) 0x400100#64
      = some 0x5566778855667788#64 := by decide

/-- §2.3: the address wraps out of the window, and back into it (D4); a quadword across `MEM_TOP` is refused. -/
theorem test_movq_addresses :
    faultAfter (.movq (.mem (.ind3 1 .rbx)) (.reg .rax)) (State.reset.setReg .rbx 0x7FFFFFFFFFFFFFFF#64)
      = some (.segfault 0x8000000000000000#64) ∧
    regAfter (.movq (.mem (.ind3 0x8000000000400100#64 .rbx)) (.reg .rax))
      (quad (State.reset.setReg .rbx 0x8000000000000000#64) 0x400100#64 5) .rax = some 5 ∧
    faultAfter (.movq (.imm 1) (.mem (.ind1 0x40FFF9#64))) State.reset = some (.segfault 0x40FFF9#64) := by decide

/-- §2.3: no range check, flags untouched; `Rip` reads as the address of the instruction. -/
theorem test_leaq :
    regAfter (.leaq (.mem (.ind3 0xFFFFFFFFFFFFFFF0#64 .rbx)) (.reg .rax)) (State.reset.setReg .rbx 0x400100#64) .rax
      = some 0x4000F0#64 ∧
    regAfter (.leaq (.mem (.ind1 0x123456789#64)) (.reg .rax)) State.reset .rax = some 0x123456789#64 ∧
    regAfter (.leaq (.mem (.ind3 8 .rip)) (.reg .rax)) State.reset .rax = some 0x400008#64 ∧
    faultAfter (.leaq (.mem (.ind2 .rbx)) (.mem (.ind1 0))) State.reset = some (.segfault 0) := by decide

/-- §2.4. -/
theorem test_addq :
    onRax .addq 0x7FFFFFFFFFFFFFFF#64 1 (flags false false false)
      = some (0x8000000000000000#64, flags true true false) ∧
    onRax .addq 0xFFFFFFFFFFFFFFFF#64 1 (flags false false false) = some (0, flags false false true) ∧
    onRax .addq 0x8000000000000000#64 0x7FFFFFFFFFFFFFFF#64 (flags true true true)
      = some (0xFFFFFFFFFFFFFFFF#64, flags false true false) := by decide

/-- §2.4: the same register on both sides, and a quadword of memory on both sides. -/
theorem test_addq_same_operand :
    regAfter (.addq (.reg .rax) (.reg .rax)) (State.reset.setReg .rax 0x4000000000000000#64) .rax
      = some 0x8000000000000000#64 ∧
    quadAfter (.addq (.mem (.ind2 .rbx)) (.mem (.ind2 .rbx)))
      (quad (State.reset.setReg .rbx 0x400100#64) 0x400100#64 0x15) 0x400100#64 = some 0x2A := by decide

/-- §2.4: `dest - src`, and the forced `OF` of a source `MIN`. -/
theorem test_subq :
    onRax .subq 5 3 (flags true true true) = some (2, flags false false false) ∧
    onRax .subq 0xFFFFFFFFFFFFFFFF#64 0x8000000000000000#64 (flags true true true)
      = some (0x7FFFFFFFFFFFFFFF#64, flags true false false) ∧
    onRax .subq 0x7FFFFFFFFFFFFFFF#64 0xFFFFFFFFFFFFFFFF#64 (flags false false false)
      = some (0x8000000000000000#64, flags true true false) := by decide

/-- §2.4: `SF` and `ZF` keep their values. -/
theorem test_imulq :
    onRax .imulq 0x100000000#64 0x80000000#64 (flags true false true)
      = some (0x8000000000000000#64, flags true false true) ∧
    onRax .imulq 0x100000000#64 0xFFFFFFFF80000000#64 (flags false true false)
      = some (0x8000000000000000#64, flags false true false) ∧
    onRax .imulq 0 0x8000000000000000#64 (flags true false true) = some (0, flags false false true) := by decide

/-- §2.4: a memory destination. -/
theorem test_imulq_memory :
    quadAfter (.imulq (.imm 0xFFFFFFFFFFFFFFFD#64) (.mem (.ind1 0x400100#64))) (quad State.reset 0x400100#64 7) 0x400100#64
      = some 0xFFFFFFFFFFFFFFEB#64 := by decide

/-- §2.4. -/
theorem test_andq :
    onRax .andq 0xF0F0 0x0FF0 (flags true true true) = some (0xF0, flags false false false) ∧
    onRax .andq 0x8000000000000000#64 0x8000000000000000#64 (flags true true true)
      = some (0x8000000000000000#64, flags false true false) := by decide

/-- §2.4. -/
theorem test_orq :
    onRax .orq 0xF0F0 0x0FF0 (flags true true true) = some (0xFFF0, flags false false false) ∧
    onRax .orq 0 0 (flags true true true) = some (0, flags false false true) := by decide

/-- §2.4. -/
theorem test_xorq :
    onRax .xorq 0xF0F0 0x0FF0 (flags true true true) = some (0xFF00, flags false false false) ∧
    onRax .xorq 0x8000000000000000#64 0x8000000000000000#64 (flags true true true)
      = some (0, flags false false true) := by decide

/-- §2.5. -/
theorem test_incq :
    onRax1 .incq 0x7FFFFFFFFFFFFFFF#64 = some (0x8000000000000000#64, flags true true false) ∧
    onRax1 .incq 0xFFFFFFFFFFFFFFFF#64 = some (0, flags false false true) := by decide

/-- §2.5. -/
theorem test_decq :
    onRax1 .decq 0x8000000000000000#64 = some (0x7FFFFFFFFFFFFFFF#64, flags true false false) ∧
    onRax1 .decq 0 = some (0xFFFFFFFFFFFFFFFF#64, flags false true false) := by decide

/-- §2.5, and flags not written when the destination faults. -/
theorem test_notq :
    onRax1 .notq 0 = some (0xFFFFFFFFFFFFFFFF#64, flags false true false) ∧
    onRax1 .notq 0xFFFFFFFFFFFFFFFF#64 = some (0, flags false false true) ∧
    faultAfter (.notq (.mem (.ind2 .rbx))) (State.reset.setReg .rbx 0x40FFFC#64)
      = some (.segfault 0x40FFFC#64) := by decide

/-- §2.5. -/
theorem test_negq :
    onRax1 .negq 0x8000000000000000#64 = some (0x8000000000000000#64, flags true true false) ∧
    onRax1 .negq 5 = some (0xFFFFFFFFFFFFFFFB#64, flags false true false) ∧
    onRax1 .negq 0 = some (0, flags false false true) := by decide

/-- §2.4: `Rax` unchanged; an `Imm` destination. -/
theorem test_cmpq :
    onRax .cmpq 3 5 (flags true true true) = some (3, flags false true false) ∧
    onRax .cmpq 0xFFFFFFFFFFFFFFFB#64 0x8000000000000000#64 (flags false false false)
      = some (0xFFFFFFFFFFFFFFFB#64, flags true false false) ∧
    flagsAfter (.cmpq (.reg .rax) (.imm 5)) (State.reset.setReg .rax 7) = some (flags false true false) := by decide

/-- §2.6: counts 1, 2, 0 and 65. -/
theorem test_shlq :
    shiftRax .shlq 0x4000000000000000#64 1 (flags true false false)
      = some (0x8000000000000000#64, flags true true false) ∧
    shiftRax .shlq 0x4000000000000000#64 2 (flags false true true) = some (0, flags false false true) ∧
    shiftRax .shlq 5 0 (flags false true true) = some (5, flags false true true) ∧
    shiftRax .shlq 0xFFFFFFFFFFFFFFFF#64 65 (flags false true true)
      = some (0xFFFFFFFFFFFFFFFE#64, flags false true false) := by decide

/-- §2.6: the count in `Rcx`, also as its own destination's count. -/
theorem test_shlq_rcx :
    regAfter (.shlq (.reg .rcx) (.reg .rax)) ((State.reset.setReg .rax 1).setReg .rcx 4) .rax = some 0x10 ∧
    flagsAfter (.shlq (.reg .rcx) (.reg .rax)) (((start true true true).setReg .rax 1).setReg .rcx 4)
      = some (flags true false false) := by decide

/-- §2.6. -/
theorem test_sarq :
    shiftRax .sarq 0x8000000000000000#64 1 (flags true true true)
      = some (0xC000000000000000#64, flags false true false) ∧
    shiftRax .sarq 0xFFFFFFFFFFFFFFF8#64 2 (flags true false false)
      = some (0xFFFFFFFFFFFFFFFE#64, flags true true false) ∧
    shiftRax .sarq 0xFFFFFFFFFFFFFFFF#64 64 (flags true false false)
      = some (0xFFFFFFFFFFFFFFFF#64, flags true false false) := by decide

/-- §2.6. -/
theorem test_shrq :
    shiftRax .shrq 0xFFFFFFFFFFFFFFFF#64 1 (flags false true true)
      = some (0x7FFFFFFFFFFFFFFF#64, flags true false false) ∧
    shiftRax .shrq 0xFFFFFFFFFFFFFFFF#64 63 (flags true false false) = some (1, flags true false false) ∧
    regAfter (.shrq (.reg .rcx) (.reg .rcx)) (State.reset.setReg .rcx 0x41) .rcx = some 0x20 ∧
    faultAfter (.shrq (.imm 0) (.mem (.ind1 0x410000#64))) State.reset = some (.segfault 0x410000#64) := by decide

/-- §2.7. -/
theorem test_pushq :
    regAfter (.pushq (.imm 1)) State.reset .rsp = some 0x40FFF0#64 ∧
    quadAfter (.pushq (.imm 1)) State.reset 0x40FFF0#64 = some 1 ∧
    quadAfter (.pushq (.reg .rsp)) State.reset 0x40FFF0#64 = some 0x40FFF0#64 ∧
    faultAfter (.pushq (.imm 1)) (State.reset.setReg .rsp 0x400000#64) = some (.segfault 0x3FFFF8#64) := by decide

/-- §2.7. -/
theorem test_popq :
    regAfter (.popq (.reg .rbx)) (quad (State.reset.setReg .rsp 0x40FFF0#64) 0x40FFF0#64 0x55) .rbx = some 0x55 ∧
    regAfter (.popq (.reg .rsp)) (quad (State.reset.setReg .rsp 0x40FFF0#64) 0x40FFF0#64 0x400100#64) .rsp
      = some 0x400108#64 ∧
    quadAfter (.popq (.mem (.ind2 .rsp))) (quad (State.reset.setReg .rsp 0x40FFF0#64) 0x40FFF0#64 0x99) 0x40FFF0#64
      = some 0x99 ∧
    faultAfter (.popq (.reg .rax)) (State.reset.setReg .rsp 0x410000#64) = some (.segfault 0x410000#64) := by decide

/-- §2.8. -/
theorem test_jmp :
    regAfter (.jmp (.imm 0x400100#64)) State.reset .rip = some 0x400100#64 ∧
    regAfter (.jmp (.mem (.ind1 0x400100#64))) (quad State.reset 0x400100#64 0x400040#64) .rip = some 0x400040#64 ∧
    faultAfter (.jmp (.mem (.ind1 0))) State.reset = some (.segfault 0) := by decide

/-- §2.8: taken, not taken, and an operand that is not evaluated. -/
theorem test_jEq :
    regAfter (.jEq (.imm 0x400100#64)) (start false false true) .rip = some 0x400100#64 ∧
    regAfter (.jEq (.mem (.ind1 0))) (start false false false) .rip = some 0x400008#64 ∧
    faultAfter (.jEq (.mem (.ind1 0))) (start false false true) = some (.segfault 0) := by decide

/-- §2.8. -/
theorem test_jNeq :
    regAfter (.jNeq (.imm 0x400100#64)) (start false false false) .rip = some 0x400100#64 ∧
    regAfter (.jNeq (.imm 0x400100#64)) (start true true true) .rip = some 0x400008#64 := by decide

/-- §2.8. -/
theorem test_jLt :
    regAfter (.jLt (.imm 0x400100#64)) (start true false false) .rip = some 0x400100#64 ∧
    regAfter (.jLt (.imm 0x400100#64)) (start true true false) .rip = some 0x400008#64 := by decide

/-- §2.8. -/
theorem test_jLe :
    regAfter (.jLe (.imm 0x400100#64)) (start false false true) .rip = some 0x400100#64 ∧
    regAfter (.jLe (.imm 0x400100#64)) (start true true false) .rip = some 0x400008#64 := by decide

/-- §2.8. -/
theorem test_jGt :
    regAfter (.jGt (.imm 0x400100#64)) (start true true false) .rip = some 0x400100#64 ∧
    regAfter (.jGt (.imm 0x400100#64)) (start false false true) .rip = some 0x400008#64 := by decide

/-- §2.8. -/
theorem test_jGe :
    regAfter (.jGe (.imm 0x400100#64)) (start false false true) .rip = some 0x400100#64 ∧
    regAfter (.jGe (.imm 0x400100#64)) (start true false false) .rip = some 0x400008#64 := by decide

/-- §2.8. -/
theorem test_callq :
    regAfter (.callq (.imm 0x400018#64)) State.reset .rip = some 0x400018#64 ∧
    quadAfter (.callq (.imm 0x400018#64)) State.reset 0x40FFF0#64 = some 0x400008#64 ∧
    regAfter (.callq (.mem (.ind2 .rsp))) State.reset .rip = some 0x400008#64 ∧
    faultAfter (.callq (.imm 0x400018#64)) (State.reset.setReg .rsp 0x400000#64)
      = some (.segfault 0x3FFFF8#64) := by decide

/-- §2.8. -/
theorem test_retq :
    regAfter .retq (quad (State.reset.setReg .rsp 0x40FFF0#64) 0x40FFF0#64 0x400010#64) .rip = some 0x400010#64 ∧
    regAfter .retq (quad (State.reset.setReg .rsp 0x40FFF0#64) 0x40FFF0#64 0x400010#64) .rsp = some 0x40FFF8#64 ∧
    faultAfter .retq (State.reset.setReg .rsp 0x410000#64) = some (.segfault 0x410000#64) := by decide

/-- §2.9: all 64 bits are written. -/
theorem test_setEq :
    regAfter (.setEq (.reg .rax)) ((start false false true).setReg .rax 0xFFFFFFFFFFFFFFFF#64) .rax = some 1 ∧
    regAfter (.setEq (.reg .rax)) ((start false false false).setReg .rax 0xFFFFFFFFFFFFFFFF#64) .rax = some 0 ∧
    faultAfter (.setEq (.mem (.ind1 0x40FFFC#64))) (start false false true) = some (.segfault 0x40FFFC#64) := by decide

/-- §2.9. -/
theorem test_setNeq :
    regAfter (.setNeq (.reg .rcx)) (start false true true) .rcx = some 0 ∧
    quadAfter (.setNeq (.mem (.ind1 0x400100#64))) (quad State.reset 0x400100#64 0xFFFFFFFFFFFFFFFF#64) 0x400100#64
      = some 1 := by decide

/-- §2.9. -/
theorem test_setLt :
    regAfter (.setLt (.reg .rcx)) (start true false false) .rcx = some 1 ∧
    regAfter (.setLt (.reg .rcx)) (start true true false) .rcx = some 0 := by decide

/-- §2.9. -/
theorem test_setLe :
    regAfter (.setLe (.reg .rcx)) (start false false true) .rcx = some 1 ∧
    regAfter (.setLe (.reg .rcx)) (start true true false) .rcx = some 0 := by decide

/-- §2.9. -/
theorem test_setGt :
    regAfter (.setGt (.reg .rcx)) (start true true false) .rcx = some 1 ∧
    regAfter (.setGt (.reg .rcx)) (start true true true) .rcx = some 0 := by decide

/-- §2.9. -/
theorem test_setGe :
    regAfter (.setGe (.reg .rcx)) (start true false false) .rcx = some 0 ∧
    regAfter (.setGe (.reg .rcx)) (start true true true) .rcx = some 1 := by decide

/-- R12 (D10): a store to `Rip` is overwritten by the advance. -/
theorem test_store_to_rip : regAfter (.movq (.imm 0x123) (.reg .rip)) State.reset .rip = some 0x400008#64 := by decide

/-! ## Witnesses: for every obligation with hypotheses, a state and operands that meet them, each clause at a boundary -/

/-- `Rbx` points to the last legal quadword, which holds 5; `Rdx` points one byte further; `Rsp` to a quadword of the stack. -/
def edge : State :=
  quad (quad (((State.reset.setReg .rbx 0x40FFF8#64).setReg .rdx 0x40FFF9#64).setReg .rsp 0x40FFF0#64) 0x40FFF8#64 5)
    0x40FFF0#64 0x400010#64

/-- The last legal quadword. -/
def lastQuad : Operand := .mem (.ind2 .rbx)

/-- A quadword one byte too high. -/
def pastQuad : Operand := .mem (.ind2 .rdx)

/-- The reset state with the instruction at `Rip`. -/
def placed (i : Instr) : State := State.reset.withFetchWord 176 (encode i).toNat

theorem witness_EncodeOfDecodeGivesTokenBack : decode 0x13#176 = .ok .retq := by rfl

theorem witness_DecoderSortsEveryToken :
    illegalToken 0x17#176 ∧ illegalToken 0x3014#176 ∧
    illegalToken 0x81014#176 ∧
    illegalToken 0x1101100A#176 ∧
    ¬ illegalToken 0x51014#176 ∧ labelled 0x51014#176 ∧
    ¬ illegalToken 0x14#176 ∧ ¬ labelled 0x14#176 ∧ Token.nops 0x14#176 ≠ arityOf (Token.opc 0x14#176) ∧
    ¬ illegalToken 0x13#176 ∧ ¬ labelled 0x13#176 ∧ Token.nops 0x13#176 = arityOf (Token.opc 0x13#176) := by
  refine ⟨?_, ?_, ?_, ?_, ?_, ?_, ?_, ?_, ?_, ?_, ?_, ?_⟩ <;>
    first | decide | (simp only [illegalToken, labelled, illegalSlot]; decide)

theorem witness_ShapeCheckRefusesExactlyTheTable :
    (∀ m, Operand.reg .rax ≠ .mem m) ∧ ((∀ k, Operand.reg .rbx ≠ .imm k) ∧ Operand.reg .rbx ≠ .reg .rcx) ∧
    ((∀ k, lastQuad ≠ .imm k) ∧ lastQuad ≠ .reg .rcx) ∧ (∃ k, Operand.imm 64 = .imm k) ∧
    (storedOperand (.setGe (.imm 0)) = some (.imm 0) ∧ (∀ src dst, Instr.setGe (.imm 0) ≠ .leaq src dst) ∧
      shiftAmount (.setGe (.imm 0)) = none) ∧
    Instr.wellFormed (.shlq (.reg .rcx) lastQuad) = true := by
  simp [lastQuad, storedOperand, shiftAmount, Instr.wellFormed, Operand.isCount, Operand.isImm]

theorem witness_StepRunsDecodedInstruction :
    (placed .retq).status = .running ∧ (placed .retq).reg .rip ≠ 0xFDEAD#64 ∧
    0x400000 ≤ ((placed .retq).reg .rip).toInt ∧ ((placed .retq).reg .rip).toInt < 0x410000 ∧
    (placed .retq).cell ((placed .retq).reg .rip).toNat = .insHead 0x13#176 ∧ decode 0x13#176 = .ok .retq :=
  ⟨rfl, by decide, by decide, by decide, by decide, rfl⟩

/-- The same at the highest address of the window, where the slot is cut off (R40: only one cell is examined). -/
theorem witness_StepRunsDecodedInstruction_top :
    let s := (State.reset.setReg .rip 0x40FFFF#64).withFetchWord 176 0x13
    s.reg .rip = 0x40FFFF#64 ∧ (s.reg .rip).toInt < 0x410000 ∧ s.cell 0x40FFFF = .insHead 0x13#176 := by decide

theorem witness_FetchAndDecodeFaultsEndTheStep :
    (State.reset.status = .running ∧ State.reset.reg .rip ≠ 0xFDEAD#64) ∧
    ¬ (0x400000 ≤ (0x410000#64).toInt ∧ (0x410000#64).toInt < 0x410000) ∧
    ¬ (0x400000 ≤ (0x3FFFFF#64).toInt ∧ (0x3FFFFF#64).toInt < 0x410000) ∧
    (quad State.reset 0x400000#64 1).cell 0x400000 = .raw 1 ∧
    (State.reset.withFetchWord 176 0x17).cell 0x400000 = .insHead 0x17#176 ∧
    causeOf (decode 0x17#176) = some .badToken := by decide

theorem witness_ExitAddressHaltsAndEndsAreAbsorbing :
    let s := State.reset.setReg .rip 0xFDEAD#64
    (s.status = .running ∧ s.reg .rip = 0xFDEAD#64) ∧ (s.setStatus .halted).status = .halted ∧
    (s.setStatus (.faulted (.segfault 0))).status = .faulted (.segfault 0) := by decide

/-- A run that halts, a run that ends in a fault, and a step that faults. -/
theorem witness_RunLoopReturnsRaxAtHalt :
    (∃ t, runLoop 2 ((placed (.jmp (.imm 0xFDEAD#64))).setReg .rax 7) = .ok 7 t) ∧
    runLoop 1 (placed (.leaq (.imm 5) (.reg .rax))) = .fault (.malformed .leaqSrcNotInd) ∧
    faultOf (step (placed (.leaq (.imm 5) (.reg .rax)))) = some (.malformed .leaqSrcNotInd) :=
  ⟨⟨_, rfl⟩, rfl, rfl⟩

/-- A run that ends in a `Segfault`, one that ends in a `Malformed`, and one that halts. -/
theorem witness_RunGivesBackTheFaultKindOfItsStatus :
    runLoop 1 (placed (.jmp (.mem (.ind1 0x40FFF9#64)))) = .fault (.segfault 0x40FFF9#64) ∧
    runLoop 1 (placed (.leaq (.imm 5) (.reg .rax))) = .fault (.malformed .leaqSrcNotInd) ∧
    (runLoop 2 ((placed (.jmp (.imm 0xFDEAD#64))).setReg .rax 7)).faultKind = 0 :=
  ⟨rfl, rfl, rfl⟩

theorem witness_PlacedWordIsTheNextInstruction : decodeTableWord 176 0x13 = some .retq := by decide

/-- An image of one instruction and one data byte that ends at the top of the window. -/
theorem witness_LoadLeavesTheLoadContract :
    Image.wf { entry := 0x40FFF7#64, textPos := 0x40FFF7#64, dataPos := 0x40FFFF#64
               textSeg := textOf [.jmp (.imm 0xFDEAD#64)], dataSeg := [.raw 0x2A] } = true := by decide

theorem witness_EveryStepKeepsInvariant :
    (placed (.pushq (.imm 1))).Inv ∧ (nextOf (step (placed (.pushq (.imm 1))))).isSome = true := by
  unfold State.Inv
  decide

theorem witness_NoRunCreatesAnInstruction :
    ∃ t, Host.Core.run core 1 (placed (.pushq (.imm 1))) = .next t ∧ t.cell 0x400000 = .insHead (encode (.pushq (.imm 1))) :=
  ⟨_, rfl, by decide⟩

theorem witness_OnlyControlTransferReachesExit :
    (placed (.jmp (.imm 0xFDEAD#64))).status = .running ∧ (placed (.jmp (.imm 0xFDEAD#64))).reg .rip ≠ 0xFDEAD#64 ∧
    (nextOf (step (placed (.jmp (.imm 0xFDEAD#64))))).map (·.reg .rip) = some 0xFDEAD#64 := by decide

theorem witness_SegfaultQuadwordIsNotWhollyInTheWindow :
    (placed (.jmp (.mem (.ind1 0x40FFF9#64)))).status = .running ∧
    faultOf (step (placed (.jmp (.mem (.ind1 0x40FFF9#64))))) = some (.segfault 0x40FFF9#64) := by decide

theorem witness_OnlyConditionalsReadFlags :
    condOf (.incq lastQuad) = none ∧ (nextOf (exec (.incq lastQuad) edge)).isSome = true ∧
    condOf (.incq pastQuad) = none ∧ faultAfter (.incq pastQuad) edge = some (.segfault 0x40FFF9#64) := by decide

/-- Both sides of both ends of the window, for one cell and for a quadword. -/
theorem witness_windows :
    (0x400000 ≤ (0x400000#64).toInt ∧ (0x40FFFF#64).toInt < 0x410000) ∧
    ¬ (0x400000 ≤ (0x3FFFFF#64).toInt ∧ (0x3FFFFF#64).toInt < 0x410000) ∧
    ¬ (0x400000 ≤ (0x410000#64).toInt ∧ (0x410000#64).toInt < 0x410000) ∧
    ¬ (0x400000 ≤ (0x8000000000400000#64).toInt ∧ (0x8000000000400000#64).toInt < 0x410000) ∧
    (0x400000 ≤ (0x40FFF8#64).toInt ∧ (0x40FFF8#64).toInt ≤ 0x40FFF8) ∧
    ¬ (0x400000 ≤ (0x40FFF9#64).toInt ∧ (0x40FFF9#64).toInt ≤ 0x40FFF8) := by decide

theorem witness_IndexTranslatesTheWindow :
    0x400000 ≤ (0x400000#64).toInt ∧ (0x40FFFF#64).toInt < 0x410000 ∧
    ¬ (0x400000 ≤ (0x410000#64).toInt ∧ (0x410000#64).toInt < 0x410000) ∧
    index 0x410000#64 = .error (.segfault 0x410000#64) := by decide

theorem witness_ReadsAreLittleEndianQuadwords :
    edge.cell 0x40FFF8 = .raw 5 ∧ 0x400000 ≤ (0x40FFF8#64).toInt ∧ (0x40FFF8#64).toInt ≤ 0x40FFF8 ∧
    ¬ (0x400000 ≤ (0x40FFF9#64).toInt ∧ (0x40FFF9#64).toInt ≤ 0x40FFF8) := by decide

theorem witness_WritesAreEightRawCells :
    0x400000 ≤ (0x400000#64).toInt ∧ (0x400000#64).toInt ≤ 0x40FFF8 ∧
    ¬ (0x400000 ≤ (0x3FFFFF#64).toInt ∧ (0x3FFFFF#64).toInt ≤ 0x40FFF8) := by decide

theorem witness_SerializeRoundTrip :
    [SymByte.insHead 0x13, .insTail, .raw 1, .raw 2, .raw 3, .raw 4, .raw 5, .raw 6].length = 8 := by decide

/-- `q` and `q + 8` written, `q + 1` read (95_test_vectors.md §2.1): the byte after the quadword comes in at the top. -/
theorem witness_ReadAfterWrite :
    ∃ t, memWrite edge 0x40FFF0#64 0x0102030405060708#64 = .ok t ∧
      memRead t 0x40FFF1#64 = .ok 0x0501020304050607#64 := ⟨_, rfl, rfl⟩

theorem witness_FetchExaminesOneCell :
    ¬ (0x400000 ≤ (0x410000#64).toInt ∧ (0x410000#64).toInt < 0x410000) ∧
    (placed .retq).cell (0x400000#64).toNat = .insHead 0x13#176 ∧
    (placed .retq).cell (0x400001#64).toNat = .insTail ∧ edge.cell (0x40FFFF#64).toNat = .raw 0 := by decide

/-- Both ends of a written quadword, and the cells next to it. -/
theorem witness_StoreDestroysOnlyTheWrittenHeads :
    (∃ t, memWrite (placed .retq) 0x400000#64 5 = .ok t) ∧
    ((0x400000#64).toNat ≤ (0x400007#64).toNat ∧ (0x400007#64).toNat < (0x400000#64).toNat + 8) ∧
    (0x400000#64).toNat + 8 ≤ (0x400008#64).toNat ∧ (0x3FFFFF#64).toNat < (0x400000#64).toNat :=
  ⟨⟨_, rfl⟩, by decide⟩

/-- What an operand can be at the edge of the window: an `Imm`, one that is reached, one that faults when read and when
stored to. -/
def OperandCases : Prop :=
  (Operand.imm 1).isImm = true ∧ (lastQuad.isImm = false ∧ edge.reaches lastQuad = true) ∧
  ((Operand.reg .rip).isImm = false ∧ edge.reaches (.reg .rip) = true) ∧
  (pastQuad.isImm = false ∧ valueOf edge pastQuad = .error (.segfault 0x40FFF9#64)) ∧
  valueOf edge lastQuad = .ok 5 ∧ store edge pastQuad 5 = .error (.segfault 0x40FFF9#64)

theorem witness_operand_cases : OperandCases :=
  ⟨rfl, ⟨rfl, by decide⟩, ⟨rfl, rfl⟩, ⟨rfl, rfl⟩, rfl, rfl⟩

theorem witness_ReachedOperandsDoNotFault : OperandCases := witness_operand_cases
theorem witness_MovqCopiesAQuadword : OperandCases := witness_operand_cases
theorem witness_AddqAddsAndSetsAllFlags : OperandCases := witness_operand_cases
theorem witness_SubqSubtractsAndSetsAllFlags : OperandCases := witness_operand_cases
theorem witness_ImulqMultipliesAndWritesOnlyOverflow : OperandCases := witness_operand_cases
theorem witness_LogicClearsOverflowAndSetsSignZero : OperandCases := witness_operand_cases
theorem witness_IncqDecqStepByOne : OperandCases := witness_operand_cases
theorem witness_NegqNegatesAndSetsAllFlags : OperandCases := witness_operand_cases
theorem witness_CmpqSetsFlagsAlone : OperandCases := witness_operand_cases
theorem witness_JmpSetsRip : OperandCases := witness_operand_cases

theorem witness_LeaqStoresTheEffectiveAddress :
    OperandCases ∧ (∀ m, Operand.reg .rax ≠ .mem m) ∧ lastQuad = .mem (.ind2 .rbx) :=
  ⟨witness_operand_cases, by simp, rfl⟩

theorem witness_OverflowMeansNoFitOrSubtractedMin :
    Reg.rax ≠ .rip ∧ valueOf edge (.imm 0x8000000000000000#64) = .ok 0x8000000000000000#64 ∧
    (nextOf (exec (.addq (.imm 0x8000000000000000#64) (.reg .rax)) edge)).isSome = true ∧
    (nextOf (exec (.subq (.imm 0x8000000000000000#64) (.reg .rax)) edge)).isSome = true ∧
    (nextOf (exec (.imulq (.imm 0x8000000000000000#64) (.reg .rax)) edge)).isSome = true ∧
    (nextOf (exec (.incq (.reg .rax)) edge)).isSome = true ∧
    (nextOf (exec (.decq (.reg .rax)) edge)).isSome = true ∧
    (nextOf (exec (.negq (.reg .rax)) edge)).isSome = true :=
  ⟨by decide, rfl, by decide, by decide, by decide, by decide, by decide, by decide⟩

/-- The hypotheses of the three shift rules. -/
theorem witness_shift_rules :
    ((∀ n, Operand.reg .rbx ≠ .imm n) ∧ Operand.reg .rbx ≠ .reg .rcx) ∧
    ((∃ n, Operand.imm 64 = .imm n) ∨ Operand.imm 64 = .reg .rcx) ∧ OperandCases :=
  ⟨by simp, .inl ⟨_, rfl⟩, witness_operand_cases⟩

theorem witness_ShlqShiftsLeft : ((∃ n, Operand.imm 63 = .imm n) ∨ Operand.imm 63 = .reg .rcx) ∧ OperandCases :=
  ⟨.inl ⟨_, rfl⟩, witness_operand_cases⟩
theorem witness_SarqDividesRoundingDown :
    ((∃ n, Operand.reg .rcx = .imm n) ∨ Operand.reg .rcx = .reg .rcx) ∧ OperandCases :=
  ⟨.inr rfl, witness_operand_cases⟩
theorem witness_ShrqShiftsInZeros : ((∃ n, Operand.imm 0 = .imm n) ∨ Operand.imm 0 = .reg .rcx) ∧ OperandCases :=
  ⟨.inl ⟨_, rfl⟩, witness_operand_cases⟩

/-- A push that completes on the lowest quadword, and one that faults below it. -/
theorem witness_PushqStoresBelowTheStackTop :
    let s := edge.setReg .rsp 0x400008#64
    let u := edge.setReg .rsp 0x400007#64
    ((pushed s).reaches lastQuad = true ∧ quadInWindow ((pushed s).reg .rsp) = true) ∧
    valueOf (pushed s) pastQuad = .error (.segfault 0x40FFF9#64) ∧
    (valueOf (pushed u) (.imm 1) = .ok 1 ∧
      memWrite (pushed u) ((pushed u).reg .rsp) 1 = .error (.segfault 0x3FFFFF#64)) :=
  ⟨by decide, rfl, rfl, rfl⟩

theorem witness_PopqStoresTheStackTop :
    (quadInWindow (edge.reg .rsp) = true ∧ lastQuad.isImm = false ∧ edge.reaches lastQuad = true) ∧
    memRead edge (edge.reg .rsp) = .ok 0x400010#64 ∧
    store edge pastQuad 0x400010#64 = .error (.segfault 0x40FFF9#64) ∧
    memRead (edge.setReg .rsp 0x410000#64) 0x410000#64 = .error (.segfault 0x410000#64) :=
  ⟨by decide, rfl, rfl, rfl⟩

theorem witness_StackOperandsSeeRspInTheWrittenOrder :
    (nextOf (exec (.pushq (.reg .rsp)) edge)).isSome = true ∧ memRead edge (edge.reg .rsp) = .ok 0x400010#64 ∧
    (nextOf (exec (.popq (.reg .rsp)) edge)).isSome = true ∧
    (nextOf (exec (.popq (.mem (.ind2 .rsp))) edge)).isSome = true ∧
    (nextOf (exec (.callq (.mem (.ind2 .rsp))) edge)).isSome = true :=
  ⟨by decide, rfl, by decide, by decide, by decide⟩

theorem witness_PushThenPopCopies :
    mentions .rsp lastQuad = false ∧ mentions .rsp (.reg .rcx) = false ∧ mentions .rip (.reg .rcx) = false ∧
    ((nextOf (exec (.pushq lastQuad) edge)).bind fun t => (nextOf (exec (.popq (.reg .rcx)) t)).map (·.reg .rcx))
      = some 5 := by decide

/-- Also with the source `MIN`, and with a negative destination. -/
theorem witness_ConditionsAfterCompareAreSigned :
    valueOf edge (.imm 0x8000000000000000#64) = .ok 0x8000000000000000#64 ∧
    valueOf edge (.imm 0xFFFFFFFFFFFFFFFF#64) = .ok 0xFFFFFFFFFFFFFFFF#64 ∧
    (0x8000000000000000#64).toInt = -2 ^ 63 ∧ (0xFFFFFFFFFFFFFFFF#64).toInt < 0 ∧
    (nextOf (exec (.cmpq (.imm 0x8000000000000000#64) (.imm 0xFFFFFFFFFFFFFFFF#64)) edge)).isSome = true ∧
    (nextOf (exec (.cmpq (.imm 0xFFFFFFFFFFFFFFFF#64) lastQuad) edge)).isSome = true :=
  ⟨rfl, rfl, by decide, by decide, by decide, by decide⟩

/-- Every condition holds of some flags and fails of others; the operand cases stand beside them. -/
theorem witness_ConditionalJumps :
    OperandCases ∧ (∀ c ∈ [Cond.eq, .neq, .lt, .le, .gt, .ge],
      (condHolds c (flags false false false) = true ∨ condHolds c (flags false false true) = true
        ∨ condHolds c (flags true false false) = true) ∧
      (condHolds c (flags false false false) = false ∨ condHolds c (flags false false true) = false
        ∨ condHolds c (flags true false false) = false)) :=
  ⟨witness_operand_cases, by decide⟩

theorem witness_ConditionalSets : OperandCases ∧ store edge pastQuad 1 = .error (.segfault 0x40FFF9#64) :=
  ⟨witness_operand_cases, rfl⟩

theorem witness_CallqPushesTheReturnAddress :
    memWrite (pushed (edge.setReg .rsp 0x400007#64)) 0x3FFFFF#64 0x400008#64 = .error (.segfault 0x3FFFFF#64) ∧
    (∃ t, memWrite (pushed edge) ((pushed edge).reg .rsp) (wrap64 ((edge.reg .rip).toInt + 8)) = .ok t ∧
      valueOf t pastQuad = .error (.segfault 0x40FFF9#64) ∧ t.reaches lastQuad = true) :=
  ⟨rfl, _, rfl, rfl, by decide⟩

theorem witness_RetqPopsRip :
    quadInWindow (edge.reg .rsp) = true ∧
    memRead (edge.setReg .rsp 0x40FFF9#64) 0x40FFF9#64 = .error (.segfault 0x40FFF9#64) := ⟨by decide, rfl⟩

theorem witness_CallThenRetReturns :
    ((nextOf (exec (.callq (.imm 0x400040#64)) State.reset)).bind fun t => nextOf (exec .retq t)).isSome = true := by decide

theorem witness_FrameOfOperandStores :
    storedOperand (.shrq (.imm 0) lastQuad) = some lastQuad ∧
    (nextOf (exec (.shrq (.imm 0) lastQuad) edge)).isSome = true ∧
    storedOperand (.movq lastQuad (.reg .rip)) = some (.reg .rip) ∧
    (nextOf (exec (.movq lastQuad (.reg .rip)) edge)).isSome = true := by decide

theorem witness_FrameOfPushes :
    (nextOf (exec (.pushq (.imm 1)) (edge.setReg .rsp 0x400008#64))).isSome = true ∧
    (nextOf (exec (.callq (.imm 0)) edge)).isSome = true := by decide

theorem witness_FrameOfPopq :
    (nextOf (exec (.popq lastQuad) edge)).isSome = true ∧ (nextOf (exec (.popq (.reg .rsp)) edge)).isSome = true := by decide

theorem witness_FrameOfNonStores :
    (nextOf (exec (.cmpq lastQuad (.imm 1)) edge)).isSome = true ∧
    (isJump (.jLe (.imm 0)) = true ∧ (nextOf (exec (.jLe (.imm 0)) edge)).isSome = true) ∧
    (nextOf (exec .retq edge)).isSome = true := by decide

theorem witness_EachInstructionLeavesOrClearsTheseFlags :
    touchesNoFlag (.popq lastQuad) ∧ (nextOf (exec (.popq lastQuad) edge)).isSome = true ∧
    shiftAmount (.sarq (.imm 64) lastQuad) = some (.imm 64) ∧ valueOf edge (.imm 64) = .ok 64 ∧
    (64#64).toNat % 64 = 0 ∧ (nextOf (exec (.sarq (.imm 64) lastQuad) edge)).isSome = true :=
  ⟨by simp [touchesNoFlag], by decide, rfl, rfl, by decide, by decide⟩

theorem witness_RipAdvancesByEightUnlessControl :
    ¬ setsRip (.incq lastQuad) ∧ (nextOf (exec (.incq lastQuad) edge)).isSome = true ∧
    condOf (.jEq (.imm 0)) = some .eq ∧ condHolds .eq edge.flags = false ∧
    (nextOf (exec (.jEq (.imm 0)) edge)).isSome = true :=
  ⟨by simp [setsRip, isJump], by decide, rfl, by decide, by decide⟩

end Sys2Proof.Tests
end

section
/-! PROOFS. Address translation and fetch by the signed window test (R33, R40), and the two obligations of
20_memory.md about them. -/

namespace Sys2Proof.Machine

/-! ## Outside the window nothing is reached (R33, R36, R37) -/

/-- R33: an address of the window, read as a signed number, has the index counted from `MEM_BOT`. -/
theorem index_of_inWindow {a : Word} (hlo : 0x400000 ≤ a.toInt) (hhi : a.toInt < 0x410000) :
    index a = .ok (a.toInt - 0x400000).toNat := if_pos ⟨hlo, hhi⟩

theorem index_of_outside {a : Word} (h : ¬ (0x400000 ≤ a.toInt ∧ a.toInt < 0x410000)) :
    index a = .error (.segfault a) :=
  (index_error_iff a _).mpr ⟨mt inWindow_toInt_iff.mp h, rfl⟩

theorem memRead_of_not_quadInWindow {a : Word} (s : State) (h : ¬ quadInWindow a = true) :
    memRead s a = .error (.segfault a) := if_neg h

theorem memWrite_of_not_quadInWindow {a : Word} (s : State) (v : Word) (h : ¬ quadInWindow a = true) :
    memWrite s a v = .error (.segfault a) := if_neg h

/-- A quadword in the window begins in the window: where `index` raises, so do reads and writes. -/
theorem not_quadInWindow_of_index_error {a : Word} {f : Fault} (h : index a = .error f) :
    ¬ quadInWindow a = true := by
  intro hq
  obtain ⟨hlo, hhi⟩ := quadInWindow_toInt_iff.mp hq
  have hout := ((index_error_iff a f).mp h).1
  exact hout (inWindow_toInt_iff.mpr ⟨hlo, by omega⟩)

/-! ## The three outcomes of a fetch (R40); `fetch_ok` is the first -/

theorem fetch_of_index_error {a : Word} {f : Fault} (s : State) (h : index a = .error f) :
    fetch s a = .error f := by
  simp only [fetch, h]

theorem fetch_of_not_insHead {s : State} {a : Word} {k : Nat} (hk : index a = .ok k)
    (h : ∀ t, s.cell a.toNat ≠ .insHead t) : fetch s a = .error (.malformed .notInsHead) := by
  simp only [fetch, hk]
  cases hc : s.cell a.toNat with
  | insHead t => exact absurd hc (h t)
  | insTail => rfl
  | raw b => rfl

/-! ## The obligations -/

/-- Settles O25: a fetch is decided by `index` of the address and by the kind of the one cell there. -/
theorem fetchExaminesOneCell : Obligations.FetchExaminesOneCell := by
  intro s a
  refine ⟨fun hout => ?_, fun t hlo hhi hc => ?_, fun hlo hhi hc => ?_⟩
  · exact fetch_of_index_error s (index_of_outside hout)
  · exact fetch_ok.mpr ⟨inWindow_toInt_iff.mpr ⟨hlo, hhi⟩, hc⟩
  · exact fetch_of_not_insHead (index_of_inWindow hlo hhi) hc

/-- Settles O20: where `index` raises, its fault is `Segfault` of the address, and so is that of each access. -/
theorem indexTranslatesTheWindow : Obligations.IndexTranslatesTheWindow := by
  intro a
  refine ⟨index_of_inWindow, index_of_outside, fun f hf s => ?_⟩
  have hq := not_quadInWindow_of_index_error hf
  obtain rfl : f = .segfault a := ((index_error_iff a f).mp hf).2
  exact ⟨memRead_of_not_quadInWindow s hq, fun v => memWrite_of_not_quadInWindow s v hq,
    fetch_of_index_error s hf⟩

end Sys2Proof.Machine
end

section
/-! PROOFS. The header of an assembled token (R61), the outcomes of `dispatch` as equations (R70 steps 3 to 5), and the
obligation of 40_operands_moves.md about `Movq` (R95). -/

namespace Sys2Proof

/-! ## The header -/

/-- R61: the header of a token is its `NOPS`, `CC` and `OPC` fields, most significant first. -/
theorem Token.header_eq_append (t : Token) :
    t.extractLsb' 0 16 = t.extractLsb' 12 4 ++ t.extractLsb' 8 4 ++ t.extractLsb' 0 8 := by
  have hhigh : t.extractLsb' 12 4 ++ t.extractLsb' 8 4 = t.extractLsb' 8 8 :=
    BitVec.extractLsb'_append_extractLsb'_eq_extractLsb' (len₁ := 4) rfl
  rw [hhigh]
  exact (BitVec.extractLsb'_append_extractLsb'_eq_extractLsb' (len₁ := 8) rfl).symm

/-- The header of an assembled token does not depend on its operands. -/
theorem assemble_header (opc : BitVec 8) (cc nops : BitVec 4) (s0 s1 : Slot) :
    (assemble opc cc nops s0 s1).extractLsb' 0 16 = nops ++ cc ++ opc := by
  have hopc := BitVec.eq_of_toNat_eq (assemble_opc opc cc nops s0 s1)
  have hcc := BitVec.eq_of_toNat_eq (assemble_cc opc cc nops s0 s1)
  have hnops := BitVec.eq_of_toNat_eq (assemble_nops opc cc nops s0 s1)
  rw [Token.header_eq_append, hnops, hcc, hopc]

/-! ## The shape check of a destination (R67) -/

theorem storeShape_of_isImm {dst : Operand} (h : dst.isImm = true) : storeShape dst = some .storeToImm := if_pos h

theorem storeShape_of_not_isImm {dst : Operand} (h : dst.isImm = false) : storeShape dst = none :=
  (Laws.ShapeCheck.storeShape_iff dst).mpr (by rw [h]; rfl)

namespace Machine

/-! ## The outcomes of a dispatch -/

theorem dispatch_of_shapeFault {i : Instr} {c : Malformed} (e : Except Fault State) (h : shapeFault i = some c) :
    dispatch i e = .fault (.malformed c) := dispatch_fault.mpr (.inl ⟨c, h, rfl⟩)

theorem dispatch_error {i : Instr} {e : Except Fault State} {f : Fault} (h : shapeFault i = none)
    (he : e = .error f) : dispatch i e = .fault f := dispatch_fault.mpr (.inr ⟨h, he⟩)

/-- A meaning that ends in the advance of `Rip` answers `nextAt`. -/
theorem dispatch_advance {i : Instr} {e : Except Fault State} {s t : State} (h : shapeFault i = none)
    (he : e = .ok (t.advance (s.reg .rip))) : dispatch i e = Claims.nextAt s t := dispatch_next.mpr ⟨h, he⟩

/-! ## The obligation -/

/-- Settles O30: the shape check decides first, then the read of the source, then the store. -/
theorem movqCopiesAQuadword : Obligations.MovqCopiesAQuadword := by
  intro src dst s
  refine ⟨assemble_header 0 0 2 _ _, fun hi => ?_, fun f hi hv => ?_, fun v f hi hv ht => ?_, fun hi hsrc hdst => ?_⟩
  · exact dispatch_of_shapeFault _ (storeShape_of_isImm hi)
  · exact dispatch_error (storeShape_of_not_isImm hi) (bind_error.mpr (.inl hv))
  · exact dispatch_error (storeShape_of_not_isImm hi)
      (bind_error.mpr (.inr ⟨v, hv, bind_error.mpr (.inl ht)⟩))
  · obtain ⟨v, hv⟩ := valueOf_of_reaches hsrc
    obtain ⟨t, ht⟩ := store_of_reaches v hi hdst
    exact ⟨v, t, hv, ht, dispatch_advance (storeShape_of_not_isImm hi)
      (bind_ok.mpr ⟨v, hv, bind_ok.mpr ⟨t, ht, rfl⟩⟩)⟩

end Machine

end Sys2Proof
end

section
/-! PROOFS. The faults of the two shared updates in the order of R94, the rules of an instruction that is the dispatch of
such an update, and the obligation of 41_alu.md §3 about the logic instructions (R115 to R117, R120). -/

namespace Sys2Proof.Machine

/-! ## The faults of `updateBy` and `updateAlone`; `updateBy_ok` and `updateAlone_ok` are their completions -/

theorem updateBy_of_src_error {op : AluOp} {src dst : Operand} {s : State} {f : Fault} (hv : valueOf s src = .error f) :
    updateBy op src dst s = .error f := bind_error.mpr (.inl hv)

theorem updateBy_of_dst_error {op : AluOp} {src dst : Operand} {s : State} {v : Word} {f : Fault}
    (hv : valueOf s src = .ok v) (hd : valueOf s dst = .error f) : updateBy op src dst s = .error f :=
  bind_error.mpr (.inr ⟨v, hv, bind_error.mpr (.inl hd)⟩)

theorem updateAlone_of_dst_error {op : AluOp} {v : Word} {dst : Operand} {s : State} {f : Fault}
    (hd : valueOf s dst = .error f) : updateAlone op v dst s = .error f := bind_error.mpr (.inl hd)

/-- New flags do not change what a store reaches. -/
theorem store_setFlags_of_reaches {s : State} {o : Operand} (fl : Flags) (v : Word) (hi : o.isImm = false)
    (h : s.reaches o = true) : ∃ t, store (s.setFlags fl) o v = .ok t :=
  store_of_reaches v hi ((reaches_setFlags s fl o).trans h)

/-! ## An instruction that is the dispatch of an update obeys the rule of its form -/

theorem updateRule_of_dispatch {mk : Operand → Operand → Instr} {h : BitVec 16} {op : AluOp}
    {res : Word → Word → Word} {fl : Word → Word → Flags → Flags}
    (hheader : ∀ src dst, Claims.HeaderIs (mk src dst) h)
    (hshape : ∀ src dst, shapeFault (mk src dst) = storeShape dst)
    (hexec : ∀ src dst s, exec (mk src dst) s = dispatch (mk src dst) (updateBy op src dst s))
    (hres : ∀ d v, aluResult op d v = res d v) (hfl : ∀ d v old, flagEngine op d v old = fl d v old) :
    Claims.UpdateRule mk h res fl := by
  intro src dst s
  have hnone (hi : dst.isImm = false) : shapeFault (mk src dst) = none :=
    (hshape src dst).trans (storeShape_of_not_isImm hi)
  rw [hexec]
  refine ⟨hheader src dst, fun hi => ?_, fun f hi hv => ?_, fun v f hi hv hd => ?_, fun hi hsrc hdst => ?_⟩
  · exact dispatch_of_shapeFault _ ((hshape src dst).trans (storeShape_of_isImm hi))
  · exact dispatch_error (hnone hi) (updateBy_of_src_error hv)
  · exact dispatch_error (hnone hi) (updateBy_of_dst_error hv hd)
  · obtain ⟨v, hv⟩ := valueOf_of_reaches hsrc
    obtain ⟨d, hd⟩ := valueOf_of_reaches hdst
    obtain ⟨t, ht⟩ := store_setFlags_of_reaches (fl d v s.flags) (res d v) hi hdst
    refine ⟨v, d, t, hv, hd, ht, dispatch_advance (hnone hi) (updateBy_ok.mpr ⟨v, d, t, hv, hd, ?_, rfl⟩)⟩
    rw [hres, hfl, ht]

/-- The same for an instruction with a destination alone; `v` is its implicit source value. -/
theorem unaryRule_of_dispatch {mk : Operand → Instr} {h : BitVec 16} {op : AluOp} {v : Word} {res : Word → Word}
    {fl : Word → Flags} (hheader : ∀ dst, Claims.HeaderIs (mk dst) h)
    (hshape : ∀ dst, shapeFault (mk dst) = storeShape dst)
    (hexec : ∀ dst s, exec (mk dst) s = dispatch (mk dst) (updateAlone op v dst s))
    (hres : ∀ d, aluResult op d v = res d) (hfl : ∀ d old, flagEngine op d v old = fl d) :
    Claims.UnaryRule mk h res fl := by
  intro dst s
  have hnone (hi : dst.isImm = false) : shapeFault (mk dst) = none := (hshape dst).trans (storeShape_of_not_isImm hi)
  rw [hexec]
  refine ⟨hheader dst, fun hi => ?_, fun f hi hd => ?_, fun hi hdst => ?_⟩
  · exact dispatch_of_shapeFault _ ((hshape dst).trans (storeShape_of_isImm hi))
  · exact dispatch_error (hnone hi) (updateAlone_of_dst_error hd)
  · obtain ⟨d, hd⟩ := valueOf_of_reaches hdst
    obtain ⟨t, ht⟩ := store_setFlags_of_reaches (fl d) (res d) hi hdst
    refine ⟨d, t, hd, ht, dispatch_advance (hnone hi) (updateAlone_ok.mpr ⟨d, t, hd, ?_, rfl⟩)⟩
    rw [hres, hfl, ht]

/-! ## The flags of the logic operations -/

/-- R115 to R117, R120: a logic operation clears `OF` and keeps nothing of the old flags. -/
theorem flagEngine_of_logic {op : AluOp} (hop : op = .and ∨ op = .or ∨ op = .xor ∨ op = .not) (d s : Word)
    (old : Flags) : flagEngine op d s old =
      { of := false, sf := decide ((aluResult op d s).toInt < 0), zf := decide (aluResult op d s = 0) } := by
  rcases hop with rfl | rfl | rfl | rfl <;> rfl

/-! ## The obligation -/

/-- Settles O35: each of the four is the dispatch of an update, with the flags of a logic operation. -/
theorem logicClearsOverflowAndSetsSignZero : Obligations.LogicClearsOverflowAndSetsSignZero := by
  refine ⟨?andq, ?orq, ?xorq, ?notq⟩
  case andq =>
    exact updateRule_of_dispatch (op := .and) (fun _ _ => assemble_header 6 0 2 _ _) (fun _ _ => rfl)
      (fun _ _ _ => rfl) (fun _ _ => rfl) (flagEngine_of_logic (by simp))
  case orq =>
    exact updateRule_of_dispatch (op := .or) (fun _ _ => assemble_header 5 0 2 _ _) (fun _ _ => rfl)
      (fun _ _ _ => rfl) (fun _ _ => rfl) (flagEngine_of_logic (by simp))
  case xorq =>
    exact updateRule_of_dispatch (op := .xor) (fun _ _ => assemble_header 4 0 2 _ _) (fun _ _ => rfl)
      (fun _ _ _ => rfl) (fun _ _ => rfl) (flagEngine_of_logic (by simp))
  case notq =>
    exact unaryRule_of_dispatch (op := .not) (v := 0) (fun _ => assemble_header 12 0 1 _ _) (fun _ => rfl)
      (fun _ _ => rfl) (fun _ => rfl) (flagEngine_of_logic (by simp) · 0)

end Sys2Proof.Machine
end

section
/-! PROOFS. The obligations of 44_control.md about `Jmp` (R161), `Retq` (R170) and the conditional sets (R171 to
R177). -/

namespace Sys2Proof.Machine

/-! ## Jumps and returns -/

theorem memRead_of_inWindow {a : Word} (s : State) (h : quadInWindow a = true) : ∃ v, memRead s a = .ok v :=
  ⟨_, if_pos h⟩

/-- `jumpTo_ok` is its completion. -/
theorem jumpTo_of_src_error {src : Operand} {s : State} {f : Fault} (hv : valueOf s src = .error f) :
    jumpTo src s = .error f := bind_error.mpr (.inl hv)

/-- Settles O48: a jump accepts every operand form, and its one effect is `jumpTo`. -/
theorem jmpSetsRip : Obligations.JmpSetsRip := by
  intro src s
  refine ⟨assemble_header 20 0 1 _ _, fun f hv => ?_, fun hsrc => ?_⟩
  · exact dispatch_error (i := .jmp src) rfl (jumpTo_of_src_error hv)
  · obtain ⟨a, ha⟩ := valueOf_of_reaches hsrc
    exact ⟨a, ha, dispatch_next (i := .jmp src).mpr ⟨rfl, jumpTo_ok.mpr ⟨a, ha, rfl⟩⟩⟩

/-- Settles O51: the read of the stack top alone decides whether a return completes. -/
theorem retqPopsRip : Obligations.RetqPopsRip := by
  intro s
  refine ⟨assemble_header 19 0 0 _ _, fun f hr => ?_, fun hq => ?_⟩
  · exact dispatch_error (i := .retq) rfl (bind_error.mpr (.inl hr))
  · obtain ⟨a, ha⟩ := memRead_of_inWindow s hq
    exact ⟨a, ha, dispatch_next (i := .retq).mpr ⟨rfl, bind_ok.mpr ⟨a, ha, rfl⟩⟩⟩

/-! ## Conditional sets -/

/-- `setIf_ok` is its completion. -/
theorem setIf_of_store_error {cc : Cond} {dst : Operand} {s : State} {f : Fault}
    (ht : store s dst (if condHolds cc s.flags then 1 else 0) = .error f) : setIf cc dst s = .error f :=
  bind_error.mpr (.inl ht)

/-- An instruction that is the dispatch of a set on the condition `cc` obeys the rule of its form. -/
theorem setRule_of_dispatch {mk : Operand → Instr} {h : BitVec 16} (cc : Cond)
    (hheader : ∀ dst, Claims.HeaderIs (mk dst) h) (hshape : ∀ dst, shapeFault (mk dst) = storeShape dst)
    (hexec : ∀ dst s, exec (mk dst) s = dispatch (mk dst) (setIf cc dst s)) :
    Claims.SetRule mk h (condHolds cc) := by
  intro dst s
  have hnone (hi : dst.isImm = false) : shapeFault (mk dst) = none := (hshape dst).trans (storeShape_of_not_isImm hi)
  rw [hexec]
  refine ⟨hheader dst, fun hi => ?_, fun f hi ht => ?_, fun hi hdst => ?_⟩
  · exact dispatch_of_shapeFault _ ((hshape dst).trans (storeShape_of_isImm hi))
  · exact dispatch_error (hnone hi) (setIf_of_store_error ht)
  · obtain ⟨t, ht⟩ := store_of_reaches (if condHolds cc s.flags then 1 else 0) hi hdst
    exact ⟨t, ht, dispatch_advance (hnone hi) (setIf_ok.mpr ⟨t, ht, rfl⟩)⟩

/-- Settles O53: each of the six is the dispatch of `setIf` on its row of the table of R160. -/
theorem conditionalSets : Obligations.ConditionalSets := by
  refine ⟨?eq, ?neq, ?lt, ?le, ?gt, ?ge⟩
  case eq => exact setRule_of_dispatch .eq (fun _ => assemble_header 22 0 1 _ _) (fun _ => rfl) (fun _ _ => rfl)
  case neq => exact setRule_of_dispatch .neq (fun _ => assemble_header 22 1 1 _ _) (fun _ => rfl) (fun _ _ => rfl)
  case lt => exact setRule_of_dispatch .lt (fun _ => assemble_header 22 2 1 _ _) (fun _ => rfl) (fun _ _ => rfl)
  case le => exact setRule_of_dispatch .le (fun _ => assemble_header 22 3 1 _ _) (fun _ => rfl) (fun _ _ => rfl)
  case gt => exact setRule_of_dispatch .gt (fun _ => assemble_header 22 4 1 _ _) (fun _ => rfl) (fun _ _ => rfl)
  case ge => exact setRule_of_dispatch .ge (fun _ => assemble_header 22 5 1 _ _) (fun _ => rfl) (fun _ _ => rfl)

end Sys2Proof.Machine
end

section
/-! PROOFS. The round trips between instructions and tokens (R61 to R69, R74), the sorting of every token by the
decoder, and the shape check (R67). -/

namespace Sys2Proof

open Machine Machine.Claims

/-! ## Decoding an assembled token -/

theorem operands_assemble0 (opc : BitVec 8) (cc : BitVec 4) : (assemble0 opc cc).operands = .ok [] := by
  simp [Token.operands, assemble0, assemble_nops, assemble_slot0, assemble_slot1]

theorem operands_assemble1 (opc : BitVec 8) (cc : BitVec 4) (a : Operand) :
    (assemble1 opc cc a).operands = .ok [a] := by
  simp [Token.operands, assemble1, assemble_nops, assemble_slot0, assemble_slot1, Operand.read_slot]

theorem operands_assemble2 (opc : BitVec 8) (cc : BitVec 4) (a b : Operand) :
    (assemble2 opc cc a b).operands = .ok [a, b] := by
  simp [Token.operands, assemble2, assemble_nops, assemble_slot0, assemble_slot1, Operand.read_slot]

/-- Everything a decoding that succeeds has read (R74). -/
theorem decode_ok {t : Token} {i : Instr} :
    decode t = .ok i ↔
      opcodeLegal t.opc t.cc = true ∧ ∃ ops, t.operands = .ok ops ∧ build t.opc t.cc ops = .ok i := by
  unfold decode
  cases opcodeLegal t.opc t.cc <;> cases t.operands <;> simp

theorem decode_assemble0 {opc : BitVec 8} {cc : BitVec 4} {i : Instr}
    (hlegal : opcodeLegal opc.toNat cc.toNat = true) (hbuild : build opc.toNat cc.toNat [] = .ok i) :
    decode (assemble0 opc cc) = .ok i := by
  have hopc : (assemble0 opc cc).opc = opc.toNat := assemble_opc ..
  have hcc : (assemble0 opc cc).cc = cc.toNat := assemble_cc ..
  exact decode_ok.mpr ⟨by rw [hopc, hcc, hlegal], _, operands_assemble0 opc cc, by rw [hopc, hcc, hbuild]⟩

theorem decode_assemble1 {opc : BitVec 8} {cc : BitVec 4} {a : Operand} {i : Instr}
    (hlegal : opcodeLegal opc.toNat cc.toNat = true) (hbuild : build opc.toNat cc.toNat [a] = .ok i) :
    decode (assemble1 opc cc a) = .ok i := by
  have hopc : (assemble1 opc cc a).opc = opc.toNat := assemble_opc ..
  have hcc : (assemble1 opc cc a).cc = cc.toNat := assemble_cc ..
  exact decode_ok.mpr ⟨by rw [hopc, hcc, hlegal], _, operands_assemble1 opc cc a, by rw [hopc, hcc, hbuild]⟩

theorem decode_assemble2 {opc : BitVec 8} {cc : BitVec 4} {a b : Operand} {i : Instr}
    (hlegal : opcodeLegal opc.toNat cc.toNat = true) (hbuild : build opc.toNat cc.toNat [a, b] = .ok i) :
    decode (assemble2 opc cc a b) = .ok i := by
  have hopc : (assemble2 opc cc a b).opc = opc.toNat := assemble_opc ..
  have hcc : (assemble2 opc cc a b).cc = cc.toNat := assemble_cc ..
  exact decode_ok.mpr ⟨by rw [hopc, hcc, hlegal], _, operands_assemble2 opc cc a b, by rw [hopc, hcc, hbuild]⟩

/-- Settles O1: the operands of an assembled token are read back, and its opcode and condition select the instruction
they were taken from. -/
theorem decodeOfEncodeGivesInstructionBack : Obligations.DecodeOfEncodeGivesInstructionBack := by
  intro i
  cases i with
  | retq => exact decode_assemble0 rfl rfl
  | incq | decq | notq | negq | pushq | popq | callq | jmp | jEq | jNeq | jLt | jLe | jGt | jGe
  | setEq | setNeq | setLt | setLe | setGt | setGe => exact decode_assemble1 rfl rfl
  | movq | addq | subq | imulq | xorq | orq | andq | shlq | sarq | shrq | leaq | cmpq =>
    exact decode_assemble2 rfl rfl

/-! ## Encoding what a token decodes to -/

/-- A bit of a field that a token was cut from at the same place. -/
theorem getLsbD_field_extract (t : Token) {lo w : Nat} (h : lo + w ≤ 176) (i : Nat) :
    (field w (t.extractLsb' lo w) lo).getLsbD i = (decide (lo ≤ i ∧ i < lo + w) && t.getLsbD i) := by
  by_cases hi : lo ≤ i ∧ i < lo + w
  · obtain ⟨j, rfl⟩ := Nat.exists_eq_add_of_le hi.1
    have hj : j < w := by omega
    rw [getLsbD_field_inside _ j h hj, BitVec.getElem_extractLsb']
    simp [hj]
  · rw [getLsbD_field_outside _ (by omega)]
    simp [hi]

/-- A token is assembled from its own fields: together they hold all of its 176 bits (R61). -/
theorem assemble_fields (t : Token) :
    assemble (t.extractLsb' 0 8) (t.extractLsb' 8 4) (t.extractLsb' 12 4) (t.slot 0) (t.slot 1) = t := by
  apply BitVec.eq_of_getLsbD_eq
  intro i hi
  simp (disch := omega) only [assemble, Token.slot, BitVec.getLsbD_or, Nat.mul_zero, Nat.mul_one, Nat.reduceAdd,
    getLsbD_field_extract]
  cases t.getLsbD i with
  | false => simp
  | true =>
    simp only [Bool.and_true, Bool.or_eq_true, decide_eq_true_eq]
    omega

/-- The slot of a register operand holds the number it was read from. -/
theorem Reg.ofNat_num_of_ofNum {n : BitVec 8} {r : Reg} (h : Reg.ofNum n.toNat = some r) :
    BitVec.ofNat 8 r.num = n := by
  rw [Reg.num_of_ofNum h, BitVec.ofNat_toNat, BitVec.setWidth_eq]

/-- A slot read as an operand is that operand's slot: no bit of it is ignored (R68). -/
theorem Slot.slot_of_read {sl : Slot} {o : Operand} (h : sl.read = .operand o) : o.slot = sl := by
  obtain ⟨kind, reg, val⟩ := sl
  have hkind {n : Nat} (hk : kind.toNat = n) : BitVec.ofNat 8 n = kind := by
    rw [← hk, BitVec.ofNat_toNat, BitVec.setWidth_eq]
  unfold Slot.read at h
  split at h
  case h_1 hk | h_3 hk =>
    obtain rfl := hkind hk
    split at h <;> cases h
    next hzero => obtain rfl : reg = 0 := hzero; rfl
  case h_2 hk hr | h_4 hk hr =>
    obtain rfl := hkind hk
    obtain rfl := Reg.ofNat_num_of_ofNum hr
    split at h <;> cases h
    next hzero => obtain rfl : val = 0 := hzero; rfl
  case h_5 hk hr =>
    obtain rfl := hkind hk
    obtain rfl := Reg.ofNat_num_of_ofNum hr
    cases h; rfl
  case h_6 | h_7 | h_8 => split at h <;> cases h
  case h_9 => cases h

/-- The token of an opcode and a condition with these operands. -/
def assembleList (opc : BitVec 8) (cc : BitVec 4) : List Operand → Token
  | [] => assemble0 opc cc
  | [a] => assemble1 opc cc a
  | a :: b :: _ => assemble2 opc cc a b

/-- The instruction that `build` selects has the opcode and the condition it was selected by. -/
theorem encode_of_build {opc cc : Nat} {ops : List Operand} {i : Instr} (h : build opc cc ops = .ok i) :
    encode i = assembleList (BitVec.ofNat 8 opc) (BitVec.ofNat 4 cc) ops := by
  unfold build at h
  rcases ops with _ | ⟨a, _ | ⟨b, _ | ⟨c, rest⟩⟩⟩
  · split at h <;> cases h; rfl
  · split at h <;> cases h <;> rfl
  · split at h <;> cases h <;> rfl
  · split at h <;> cases h

/-- A token whose operands are read is assembled from them. -/
theorem assembleList_of_operands {t : Token} {ops : List Operand} (h : t.operands = .ok ops) :
    assembleList (t.extractLsb' 0 8) (t.extractLsb' 8 4) ops = t := by
  have hfields := assemble_fields t
  have hnops {n : Nat} (hn : t.nops = n) : t.extractLsb' 12 4 = BitVec.ofNat 4 n := by
    rw [← hn, Token.nops, BitVec.ofNat_toNat, BitVec.setWidth_eq]
  unfold Token.operands at h
  split at h
  case h_1 hn =>
    split at h <;> cases h
    next hz => rwa [hnops hn, hz.1, hz.2] at hfields
  case h_2 hn =>
    split at h
    case isFalse => cases h
    case isTrue hz =>
      split at h <;> cases h
      next a ha => rwa [hnops hn, hz, ← Slot.slot_of_read ha] at hfields
  case h_3 hn =>
    split at h <;> cases h
    next a b ha hb => rwa [hnops hn, ← Slot.slot_of_read ha, ← Slot.slot_of_read hb] at hfields
  case h_4 => cases h

/-- Settles O2: the token is assembled from the operands it reads as, and the instruction built from them has its opcode
and condition. -/
theorem encodeOfDecodeGivesTokenBack : Obligations.EncodeOfDecodeGivesTokenBack := by
  intro t i h
  obtain ⟨-, ops, hops, hbuild⟩ := decode_ok.mp h
  have hopc : BitVec.ofNat 8 t.opc = t.extractLsb' 0 8 := by rw [Token.opc, BitVec.ofNat_toNat, BitVec.setWidth_eq]
  have hcc : BitVec.ofNat 4 t.cc = t.extractLsb' 8 4 := by rw [Token.cc, BitVec.ofNat_toNat, BitVec.setWidth_eq]
  rw [encode_of_build hbuild, hopc, hcc, assembleList_of_operands hops]

/-- Settles O3: ten closed tokens, evaluated. -/
theorem writtenOutWordsDecode : Obligations.WrittenOutWordsDecode := by
  unfold Obligations.WrittenOutWordsDecode
  decide

/-! ## What each token decodes to -/

theorem Reg.ofNum_eq_none_iff (n : Nat) : Reg.ofNum n = none ↔ 17 ≤ n := by
  constructor
  · intro h
    by_contra hlt
    interval_cases n <;> cases h
  · intro h
    refine Option.eq_none_iff_forall_ne_some.mpr fun r hr => ?_
    have := Reg.num_of_ofNum hr
    have := r.num_lt
    omega

/-- R68: a slot is refused exactly where its kind is reserved, its register number is illegal or a field its form does
not use is not zero. -/
theorem Slot.read_eq_illegal_iff (sl : Slot) : sl.read = .illegal ↔ illegalSlot sl := by
  have hreg := Reg.ofNum_eq_none_iff sl.reg.toNat
  unfold Slot.read illegalSlot
  split
  case h_9 h0 h2 h5 h6 h1 h3 h4 h7 =>
    simp only [true_iff]
    by_cases hk : 8 ≤ sl.kind.toNat
    · exact .inl hk
    · change ¬ _ at h0 h2 h5 h6
      have hcases : sl.kind.toNat = 1 ∨ sl.kind.toNat = 3 ∨ sl.kind.toNat = 4 ∨ sl.kind.toNat = 7 := by omega
      have hnone : Reg.ofNum sl.reg.toNat = none := by
        refine Option.eq_none_iff_forall_ne_some.mpr fun r hr => ?_
        rcases hcases with hk | hk | hk | hk
        exacts [h1 r hk hr, h3 r hk hr, h4 r hk hr, h7 r hk hr]
      exact .inr (.inl ⟨by simpa using hcases, hreg.mp hnone⟩)
  case h_6 hk | h_7 hk => simp [hk, imp_iff_not_or]
  all_goals simp_all

theorem Slot.read_eq_label_iff (sl : Slot) : sl.read = .label ↔ sl.kind.toNat ∈ [5, 6, 7] ∧ ¬ illegalSlot sl := by
  constructor
  · intro h
    have hlegal : ¬ illegalSlot sl := by simp [← Slot.read_eq_illegal_iff, h]
    refine ⟨?_, hlegal⟩
    unfold Slot.read at h
    split at h
    case h_6 hk | h_7 hk | h_8 hk _ => simp [hk]
    case h_5 | h_9 => cases h
    all_goals split at h <;> cases h
  · rintro ⟨hk, hlegal⟩
    rw [← Slot.read_eq_illegal_iff] at hlegal
    revert hlegal
    unfold Slot.read
    split <;> simp_all

theorem opcodeLegal_eq_false_iff (opc cc : Nat) : opcodeLegal opc cc = false ↔
    22 < opc ∨ ((opc = 21 ∨ opc = 22) ∧ 5 < cc) ∨ (opc ≠ 21 ∧ opc ≠ 22 ∧ cc ≠ 0) := by
  unfold opcodeLegal
  split <;> rw [decide_eq_false_iff_not] <;> omega

/-- Everything the reading of the operands can answer. -/
theorem Token.operands_cases (t : Token) :
    t.operands = .error .badToken ∨ t.operands = .error .unresolvedLabel ∨
      ∃ ops, t.operands = .ok ops ∧ ops.length = t.nops := by
  unfold Token.operands
  split
  case h_1 hn => split <;> simp [hn]
  case h_2 hn =>
    split
    · split <;> simp [hn]
    · simp
  case h_3 hn => split <;> simp [hn]
  case h_4 => simp

/-- R68, for the operands of a token. -/
theorem Token.operands_eq_badToken_iff (t : Token) : t.operands = .error .badToken ↔
    2 < t.nops ∨ (0 < t.nops ∧ illegalSlot (t.slot 0)) ∨ (1 < t.nops ∧ illegalSlot (t.slot 1)) ∨
      (t.nops = 0 ∧ t.slot 0 ≠ .zero) ∨ (t.nops ≤ 1 ∧ t.slot 1 ≠ .zero) := by
  simp only [← Slot.read_eq_illegal_iff]
  unfold Token.operands
  split
  case h_1 hn => simp [hn, imp_iff_not_or]
  case h_2 hn =>
    split
    · split <;> simp_all
    · simp_all
  case h_3 hn => split <;> simp_all
  case h_4 h0 h1 h2 =>
    change ¬ _ at h0 h1 h2
    have hmany : 2 < t.nops := by omega
    simp [hmany]

theorem Token.labelled_iff {t : Token} (hlegal : t.operands ≠ .error .badToken) :
    labelled t ↔ (0 < t.nops ∧ (t.slot 0).read = .label) ∨ (1 < t.nops ∧ (t.slot 1).read = .label) := by
  rw [ne_eq, Token.operands_eq_badToken_iff] at hlegal
  simp only [labelled, Slot.read_eq_label_iff]
  tauto

/-- R69: a token whose operands are legal is refused exactly for a label. -/
theorem Token.operands_eq_unresolvedLabel_iff {t : Token} (hlegal : t.operands ≠ .error .badToken) :
    t.operands = .error .unresolvedLabel ↔ labelled t := by
  rw [Token.labelled_iff hlegal]
  unfold Token.operands at hlegal ⊢
  split
  case h_1 hn => split <;> simp [hn]
  case h_2 hn =>
    split
    · split <;> simp_all
    · simp_all
  case h_3 hn => cases h0 : (t.slot 0).read <;> cases h1 : (t.slot 1).read <;> simp_all
  case h_4 h0 h1 h2 => simp_all

/-- R66: an opcode that takes `n` operands refuses any other number of them and no list of that length. -/
def TakesExactly (n : Nat) (take : List Operand → Except Malformed Instr) : Prop :=
  ∀ ops, (ops.length ≠ n → take ops = .error .arity) ∧ (ops.length = n → ∃ i, take ops = .ok i)

theorem takesExactly_takeNone (i : Instr) : TakesExactly 0 (takeNone i)
  | [] => ⟨fun h => absurd rfl h, fun _ => ⟨_, rfl⟩⟩
  | _ :: _ => ⟨fun _ => rfl, nofun⟩

theorem takesExactly_takeOne (f : Operand → Instr) : TakesExactly 1 (takeOne f)
  | [] => ⟨fun _ => rfl, nofun⟩
  | [_] => ⟨fun h => absurd rfl h, fun _ => ⟨_, rfl⟩⟩
  | _ :: _ :: _ => ⟨fun _ => rfl, nofun⟩

theorem takesExactly_takeTwo (f : Operand → Operand → Instr) : TakesExactly 2 (takeTwo f)
  | [] => ⟨fun _ => rfl, nofun⟩
  | [_] => ⟨fun _ => rfl, nofun⟩
  | [_, _] => ⟨fun h => absurd rfl h, fun _ => ⟨_, rfl⟩⟩
  | _ :: _ :: _ :: _ => ⟨fun _ => rfl, nofun⟩

/-- R66: a legal opcode takes as many operands as the table of arities says. -/
theorem build_takesExactly {opc cc : Nat} (h : opcodeLegal opc cc = true) :
    TakesExactly (arityOf opc) (build opc cc) := by
  have hrange : ¬ (22 < opc ∨ ((opc = 21 ∨ opc = 22) ∧ 5 < cc) ∨ (opc ≠ 21 ∧ opc ≠ 22 ∧ cc ≠ 0)) := by
    simp [← opcodeLegal_eq_false_iff, h]
  by_cases hnone : opc = 19
  · obtain rfl : cc = 0 := by omega
    subst hnone
    exact takesExactly_takeNone _
  by_cases htwo : opc ≤ 9 ∨ opc = 14 ∨ opc = 15
  · obtain rfl : cc = 0 := by omega
    rw [arityOf, if_neg hnone, if_pos htwo]
    rcases htwo with hle | rfl | rfl
    · interval_cases opc <;> exact takesExactly_takeTwo _
    · exact takesExactly_takeTwo _
    · exact takesExactly_takeTwo _
  · rw [arityOf, if_neg hnone, if_neg htwo]
    by_cases hcond : opc = 21 ∨ opc = 22
    · have hcc : cc ≤ 5 := by omega
      rcases hcond with rfl | rfl <;> interval_cases cc <;> exact takesExactly_takeOne _
    · obtain rfl : cc = 0 := by omega
      have hone : opc ∈ [10, 11, 12, 13, 16, 17, 18, 20] := by simp; omega
      fin_cases hone <;> exact takesExactly_takeOne _

/-- R68: a token is refused as no legal encoding for its opcode or for its operands. -/
theorem illegalToken_iff (t : Token) :
    illegalToken t ↔ opcodeLegal t.opc t.cc = false ∨ t.operands = .error .badToken := by
  rw [opcodeLegal_eq_false_iff, Token.operands_eq_badToken_iff]
  simp only [illegalToken, Slot.zero, or_assoc]

/-- Settles O4: the opcode, then the operands, then their number decide the answer. -/
theorem decoderSortsEveryToken : Obligations.DecoderSortsEveryToken := by
  intro t
  rw [illegalToken_iff]
  by_cases hopc : opcodeLegal t.opc t.cc = true
  case neg => simp [decode, hopc]
  rcases t.operands_cases with hops | hops | ⟨ops, hops, hlen⟩
  · simp [decode, hopc, hops]
  · have hl : labelled t := (Token.operands_eq_unresolvedLabel_iff (by simp [hops])).mp hops
    simp [decode, hopc, hops, hl]
  · have hl : ¬ labelled t := by rw [← Token.operands_eq_unresolvedLabel_iff] <;> simp [hops]
    have hbuild := build_takesExactly hopc ops
    rw [hlen] at hbuild
    simpa [decode, hopc, hops, hl] using hbuild

/-! ## The shape check -/

/-- R70 step 3: an instruction that the shape check refuses has no other effect. -/
theorem exec_of_shapeFault {i : Instr} {c : Malformed} (s : State) (h : shapeFault i = some c) :
    exec i s = .fault (.malformed c) := by
  obtain ⟨e, he⟩ := exec_is_dispatch i s
  rw [he, dispatch_of_shapeFault e h]

/-- `Laws.ShapeCheck`, for every instruction at once. -/
theorem shapeFault_eq_none_iff (i : Instr) : shapeFault i = none ↔ i.wellFormed = true := by
  cases i with
  | movq _ dst | addq _ dst | subq _ dst | imulq _ dst | xorq _ dst | orq _ dst | andq _ dst | incq dst | decq dst
  | notq dst | negq dst | popq dst | setEq dst | setNeq dst | setLt dst | setLe dst | setGt dst | setGe dst =>
    exact Laws.ShapeCheck.storeShape_iff dst
  | shlq amt dst | sarq amt dst | shrq amt dst => exact Laws.ShapeCheck.shiftShape_iff amt dst
  | leaq src dst => exact Laws.ShapeCheck.leaqShape_iff src dst
  | cmpq | pushq | callq | retq | jmp | jEq | jNeq | jLt | jLe | jGt | jGe => exact iff_of_true rfl rfl

theorem leaqShape_of_not_mem {src dst : Operand} (h : ∀ m, src ≠ .mem m) :
    leaqShape src dst = some .leaqSrcNotInd := by
  cases src with
  | imm | reg => rfl
  | mem m => exact absurd rfl (h m)

theorem isCount_iff (amt : Operand) : amt.isCount = true ↔ (∃ n, amt = .imm n) ∨ amt = .reg .rcx := by
  cases amt <;> simp [Operand.isCount]

theorem shiftShape_of_not_count {amt dst : Operand} (himm : ∀ n, amt ≠ .imm n) (hrcx : amt ≠ .reg .rcx) :
    shiftShape amt dst = some .badShiftAmount :=
  if_neg (by rw [isCount_iff]; simp [himm, hrcx])

theorem shiftShape_of_count {amt : Operand} (dst : Operand) (h : (∃ n, amt = .imm n) ∨ amt = .reg .rcx) :
    shiftShape amt dst = storeShape dst := if_pos ((isCount_iff amt).mpr h)

/-- R67: an instruction that has no condition on its source is checked for its destination alone. -/
theorem shapeFault_of_storedOperand {i : Instr} {dst : Operand} (h : storedOperand i = some dst)
    (hlea : ∀ src dst, i ≠ .leaq src dst) (hshift : shiftAmount i = none) : shapeFault i = storeShape dst := by
  cases i with
  | leaq src dst => exact absurd rfl (hlea src dst)
  | shlq | sarq | shrq => cases hshift
  | cmpq | pushq | popq | callq | retq | jmp | jEq | jNeq | jLt | jLe | jGt | jGe => cases h
  | movq | addq | subq | imulq | xorq | orq | andq | incq | decq | notq | negq | setEq | setNeq | setLt | setLe | setGt
  | setGe => cases h; rfl

/-- Settles O5: each refused form by its row of `shapeFault`; a well-formed instruction faults by an access alone. -/
theorem shapeCheckRefusesExactlyTheTable : Obligations.ShapeCheckRefusesExactlyTheTable := by
  intro s n
  have himm : storeShape (.imm n) = some .storeToImm := rfl
  refine ⟨fun src dst h => ?leaqSrc, fun amt dst hk hrcx => ?count, fun m => ?leaqDst, fun amt h => ?shiftDst,
    fun i h hlea hshift => ?store, ?popq, fun i c hwf hf => ?wellFormed⟩
  case leaqSrc => exact exec_of_shapeFault s (leaqShape_of_not_mem h)
  case count =>
    have h := shiftShape_of_not_count (dst := dst) hk hrcx
    exact ⟨exec_of_shapeFault s h, exec_of_shapeFault s h, exec_of_shapeFault s h⟩
  case leaqDst => exact exec_of_shapeFault s himm
  case shiftDst =>
    have h := (shiftShape_of_count (.imm n) h).trans himm
    exact ⟨exec_of_shapeFault s h, exec_of_shapeFault s h, exec_of_shapeFault s h⟩
  case store => exact exec_of_shapeFault s ((shapeFault_of_storedOperand h hlea hshift).trans himm)
  case popq => exact exec_of_shapeFault s himm
  case wellFormed =>
    have hnone := (shapeFault_eq_none_iff i).mpr hwf
    rcases exec_fault hf with ⟨c', hc', -⟩ | ⟨-, a, -, ha⟩
    · simp [hnone] at hc'
    · cases ha

end Sys2Proof
end

section
/-! PROOFS. The obligations of 10_state.md §1 about the registers, of 20_memory.md about data reads and writes, and of
40_operands_moves.md §1 about the operand resolver. -/

namespace Sys2Proof.Machine

/-! ## Registers -/

/-- Settles O19: the read-after-write law of the register file. -/
theorem registersAreStoredApart : Obligations.RegistersAreStoredApart :=
  fun s r q v => State.reg_setReg s r q v

/-! ## Quadwords -/

/-- Settles O21: byte `i` of the value read is the data byte of cell `a + i`. -/
theorem readsAreLittleEndianQuadwords : Obligations.ReadsAreLittleEndianQuadwords := by
  intro s a
  refine ⟨fun hout => memRead_of_not_quadInWindow s (mt quadInWindow_toInt_iff.mp hout), fun hlo hhi => ?_⟩
  refine ⟨_, if_pos (quadInWindow_toInt_iff.mpr ⟨hlo, hhi⟩), fun i hi c hc => ?_⟩
  rw [extract_deserialize _ i hi, cells_getElem? s a.toNat Config.quad hi, hc]
  cases c <;> rfl

/-- Settles O22: a write in the window succeeds, and `memWrite_ok` says what it does. -/
theorem writesAreEightRawCells : Obligations.WritesAreEightRawCells := by
  intro s a v
  refine ⟨fun hout => memWrite_of_not_quadInWindow s v (mt quadInWindow_toInt_iff.mp hout), fun hlo hhi => ?_⟩
  obtain ⟨t, ht⟩ := memWrite_of_inWindow s v (quadInWindow_toInt_iff.mpr ⟨hlo, hhi⟩)
  obtain ⟨-, hregs, hflags, hstatus, hin, hout, -⟩ := memWrite_ok ht
  exact ⟨t, ht, hin, hout, fun r => congrArg (Regs.get · r) hregs, hflags, hstatus⟩

theorem deserialize_serialize (v : Word) : deserialize (serialize v) = v :=
  deserialize_of_raw fun _ hi => serialize_getElem? v hi

/-- R51, the converse: eight cells come back as `Raw` cells of their data bytes. -/
theorem serialize_deserialize {cs : List SymByte} (h : cs.length = 8) :
    serialize (deserialize cs) = cs.map fun c => .raw (dataByte c) := by
  apply List.ext_getElem?
  intro i
  by_cases hi : i < 8
  · rw [serialize_getElem? _ hi, extract_deserialize cs i hi, List.getElem?_map,
      List.getElem?_eq_getElem (show i < cs.length by omega)]
    rfl
  · rw [List.getElem?_eq_none (by simpa [Config.quad] using hi), List.getElem?_eq_none (by simpa [h] using hi)]

/-- Settles O23: the two round trips, cell by cell. -/
theorem serializeRoundTrip : Obligations.SerializeRoundTrip := by
  refine ⟨deserialize_serialize, fun cs hcs => ?_⟩
  rw [serialize_deserialize hcs]
  exact List.map_congr_left fun c _ => by cases c <;> rfl

theorem toNat_wrap64 {n : Int} (h0 : 0 ≤ n) (h : n < 2 ^ 64) : (wrap64 n).toNat = n.toNat := by
  rw [wrap64, BitVec.toNat_ofInt, Int.emod_eq_of_lt h0 (by exact_mod_cast h)]

/-- The address one byte after one of the window. -/
theorem toNat_wrap64_succ {a : Word} (h : quadInWindow a = true) : (wrap64 (a.toInt + 1)).toNat = a.toNat + 1 := by
  obtain ⟨hlo, hhi⟩ := quadInWindow_toInt_iff.mp h
  have ha := toInt_of_le (a := a) (by omega)
  rw [toNat_wrap64 (by omega) (by omega)]
  omega

/-- Byte `i` of a quadword read that succeeds. -/
theorem extract_of_memRead {s : State} {a v : Word} (h : memRead s a = .ok v) {i : Nat} (hi : i < 8) :
    v.extractLsb' (8 * i) 8 = dataByte (s.cell (a.toNat + i)) := by
  rcases memRead_cases s a with ⟨-, hr⟩ | ⟨-, hr⟩
  · obtain rfl := Except.ok.inj (hr.symm.trans h)
    rw [extract_deserialize _ i hi, cells_getElem? s a.toNat Config.quad hi]
    rfl
  · simp [hr] at h

/-- Settles O24: the quadword one byte further takes its first seven cells from the written ones. -/
theorem readAfterWrite : Obligations.ReadAfterWrite := by
  intro s t a v ht
  obtain ⟨hq, -, -, -, hin, hout, -⟩ := memWrite_ok ht
  refine ⟨memRead_memWrite ht, fun w hw => ⟨fun i hi => ?_, ?_⟩⟩
  · rw [extract_of_memRead hw (show i < 8 by omega), toNat_wrap64_succ hq, Nat.add_right_comm, Nat.add_assoc,
      hin (i + 1) (by omega)]
    rfl
  · rw [← hout _ (.inr (Nat.le_refl (a.toNat + 8)))]
    simpa only [toNat_wrap64_succ hq, Nat.add_assoc] using extract_of_memRead hw (show 7 < 8 by omega)

/-- A fetch depends on the one cell alone (R40). -/
theorem fetch_congr {s t : State} {a : Word} (h : t.cell a.toNat = s.cell a.toNat) : fetch t a = fetch s a := by
  simp only [fetch, h]

/-- Settles O26: the written cells are `Raw`, and no other cell changes. -/
theorem storeDestroysOnlyTheWrittenHeads : Obligations.StoreDestroysOnlyTheWrittenHeads := by
  intro s t a v b ht
  obtain ⟨hq, -, -, -, hin, hout, -⟩ := memWrite_ok ht
  refine ⟨fun hle hlt => ?_, fun hb => fetch_congr (hout _ hb)⟩
  obtain ⟨hlo, hhi⟩ := (quadInWindow_iff a).mp hq
  have hraw := hin (b.toNat - a.toNat) (by omega)
  rw [Nat.add_sub_cancel' hle] at hraw
  have hb : Config.memBot ≤ b.toNat ∧ b.toNat < Config.memTop := ⟨by omega, by simp only [Config.quad] at hhi; omega⟩
  exact fetch_of_not_insHead ((index_ok_iff b _).mpr ⟨hb, rfl⟩) fun tok => by simp [hraw]

/-! ## Operands -/

/-- Settles O27: the equations of `ea` and `valueOf`. -/
theorem operandValues : Obligations.OperandValues :=
  fun _ _ _ _ _ => ⟨rfl, rfl, rfl, rfl, rfl, fun _ => rfl⟩

/-- Settles O28: the equations of `store`. -/
theorem operandStores : Obligations.OperandStores :=
  fun _ _ _ _ => ⟨rfl, fun _ => rfl, rfl⟩

/-- Settles O29: a read or store that succeeds has reached its operand, and one that reaches it succeeds. -/
theorem reachedOperandsDoNotFault : Obligations.ReachedOperandsDoNotFault := by
  intro s o v
  refine ⟨⟨fun ⟨_, hw⟩ => reaches_of_valueOf hw, valueOf_of_reaches⟩, ⟨fun ⟨t, ht⟩ => ?_, fun ⟨hi, hr⟩ => ?_⟩, ?_⟩
  · obtain ⟨hi, hr, -⟩ := store_ok ht
    exact ⟨hi, hr⟩
  · exact store_of_reaches v hi hr
  · rintro m rfl
    exact quadInWindow_toInt_iff

end Sys2Proof.Machine
end

section
/-! PROOFS. The step (R70), the run loop (R178, R193), the load contract (R220), and what every step keeps. -/

namespace Sys2Proof.Machine

/-! ## What every step keeps -/

/-- A step changes cells only into `Raw` ones. -/
theorem step_cells {s t : State} (h : step s = .next t) (x : Nat) : t.cell x = s.cell x ∨ ∃ b, t.cell x = .raw b := by
  rcases step_next h with ⟨-, rfl⟩ | ⟨-, -, rfl⟩ | ⟨-, -, i, -, hexec⟩
  · exact .inl rfl
  · exact .inl rfl
  · exact (exec_keeps hexec).cells x

/-- Settles O14: a step of a running machine keeps the status, and the halt test is the one way to `halted`. -/
theorem everyStepKeepsInvariant : Obligations.EveryStepKeepsInvariant := by
  rintro s t ⟨hwf, hhalted⟩ h
  rcases step_next h with ⟨-, rfl⟩ | ⟨-, hrip, rfl⟩ | ⟨hrun, -, i, -, hexec⟩
  · exact ⟨hwf, hhalted⟩
  · exact ⟨hwf, fun _ => hrip⟩
  · have hkeeps := exec_keeps hexec
    refine ⟨hkeeps.wf hwf, fun hhalt => ?_⟩
    have hstatus := hkeeps.status
    rw [hhalt, hrun] at hstatus
    cases hstatus

/-- A run that succeeds is a step and a shorter run. -/
theorem run_succ {M : Host.Core} {n : Nat} {s u : M.State} (h : M.run (n + 1) s = .next u) :
    ∃ t, M.step s = .next t ∧ M.run n t = .next u := by
  rw [Host.Core.run] at h
  split at h
  next t hstep => exact ⟨t, hstep, h⟩
  all_goals cases h

/-- Settles O15, by induction on the length of the run: a step makes no cell an instruction head. -/
theorem noRunCreatesAnInstruction : Obligations.NoRunCreatesAnInstruction := by
  intro n
  induction n with
  | zero => intro s t h x tok hx; cases h; exact hx
  | succ n ih =>
    intro s u h x tok hx
    obtain ⟨t, hstep, hrun⟩ := run_succ h
    have ht := ih t u hrun x tok hx
    rcases step_cells hstep x with hsame | ⟨b, hraw⟩
    · exact hsame ▸ ht
    · rw [hraw] at ht; cases ht

/-- Settles O13: no cell is listed after reset, and the machine is running. -/
theorem resetMeetsInvariant : Obligations.ResetMeetsInvariant := ⟨rfl, nofun⟩

/-! ## The step -/

theorem step_of_fetchDecode {s : State} {i : Instr} (hrun : s.status = .running) (hrip : s.reg .rip ≠ Config.exitAddr)
    (h : fetchDecode s = .ok i) : step s = exec i s := by
  simp only [step, hrun, if_neg hrip, h]

theorem step_of_fetchDecode_error {s : State} {f : Fault} (hrun : s.status = .running)
    (hrip : s.reg .rip ≠ Config.exitAddr) (h : fetchDecode s = .error f) : step s = .fault f := by
  simp only [step, hrun, if_neg hrip, h, raise]

theorem fetchDecode_of_fetch_error {s : State} {f : Fault} (h : fetch s (s.reg .rip) = .error f) :
    fetchDecode s = .error f := by
  simp only [fetchDecode, h]

theorem fetchDecode_of_decode_error {s : State} {t : Token} {c : Malformed} (h : fetch s (s.reg .rip) = .ok t)
    (hd : decode t = .error c) : fetchDecode s = .error (.malformed c) := by
  simp only [fetchDecode, h, hd]

/-- Settles O6: fetch and decoding succeed. -/
theorem stepRunsDecodedInstruction : Obligations.StepRunsDecodedInstruction := by
  intro s t i hrun hrip hlo hhi hcell hdecode
  have hfetch : fetch s (s.reg .rip) = .ok t := fetch_ok.mpr ⟨inWindow_toInt_iff.mpr ⟨hlo, hhi⟩, hcell⟩
  exact step_of_fetchDecode hrun hrip (fetchDecode_ok.mpr ⟨t, hfetch, hdecode⟩)

/-- Settles O7: the two faults of a fetch, then the decoder's. -/
theorem fetchAndDecodeFaultsEndTheStep : Obligations.FetchAndDecodeFaultsEndTheStep := by
  intro s hrun hrip
  refine ⟨fun hout => ?_, fun hlo hhi hcell => ?_, fun t c hlo hhi hcell hdecode => ?_⟩ <;>
    apply step_of_fetchDecode_error hrun hrip
  · exact fetchDecode_of_fetch_error (fetch_of_index_error s (index_of_outside hout))
  · exact fetchDecode_of_fetch_error (fetch_of_not_insHead (index_of_inWindow hlo hhi) hcell)
  · exact fetchDecode_of_decode_error (fetch_ok.mpr ⟨inWindow_toInt_iff.mpr ⟨hlo, hhi⟩, hcell⟩) hdecode

/-- R70 step 1. -/
theorem step_of_exit {s : State} (hrun : s.status = .running) (hrip : s.reg .rip = Config.exitAddr) :
    step s = .next (s.setStatus .halted) := by
  simp only [step, hrun, if_pos hrip]

/-- Settles O8: one case of the step for each run status. -/
theorem exitAddressHaltsAndEndsAreAbsorbing : Obligations.ExitAddressHaltsAndEndsAreAbsorbing := by
  intro s f
  refine ⟨step_of_exit, fun hhalt => ?_, fun hfault => ?_⟩
  · simp only [step, hhalt]
  · simp only [step, hfault]

theorem exec_ne_refused (i : Instr) (s : State) (r : Refusal) : exec i s ≠ .refused r := by
  obtain ⟨e, he⟩ := exec_is_dispatch i s
  exact he ▸ dispatch_ne_refused

/-- Settles O10: every outcome of a step is its own or that of `exec`, which is a `dispatch`. -/
theorem stepNeverRefuses : Obligations.StepNeverRefuses := by
  intro s r h
  unfold step at h
  split at h
  · cases h
  · cases h
  · split at h
    · cases h
    · split at h
      · cases h
      · exact exec_ne_refused _ s r h

/-! ## The run loop -/

/-- R178: the run loop gives what the status says after as many passes. -/
theorem runLoop_eq_ending (n : Nat) (s : State) : runLoop n s = ending (tick^[n] s) := by
  induction n generalizing s with
  | zero => rfl
  | succ n ih =>
    by_cases hrun : s.status = .running
    · rw [runLoop_running n hrun, ih, Function.iterate_succ_apply]
    · rw [runLoop_ended (n + 1) hrun, Function.iterate_fixed (tick_ended hrun)]

theorem ending_ok {s t : State} {v : Word} : ending s = .ok v t ↔ s.status = .halted ∧ s.reg .rax = v ∧ s = t := by
  unfold ending
  cases s.status <;> simp

theorem ending_fault {s : State} {f : Fault} : ending s = .fault f ↔ s.status = .faulted f := by
  unfold ending
  cases s.status <;> simp

/-- More passes do not change a run that has ended. -/
theorem runLoop_add {n : Nat} {s : State} (k : Nat) (h : (tick^[n] s).status ≠ .running) :
    runLoop (n + k) s = runLoop n s := by
  rw [runLoop_eq_ending, runLoop_eq_ending, Nat.add_comm, Function.iterate_add_apply,
    Function.iterate_fixed (tick_ended h)]

/-- Settles O9: by the status after `n` passes of the loop, which no later pass changes once it is not `running`. -/
theorem runLoopReturnsRaxAtHalt : Obligations.RunLoopReturnsRaxAtHalt := by
  refine ⟨fun s n hrun hrip => ?exit, fun s n hhalt => ?halted, fun s n f hfault => ?faulted, fun s t n v h => ?result,
    fun s n f hrun hrip hstep => ?faults, fun s t n k v h => ?okStays, fun s n k f h => ?faultStays⟩
  case exit =>
    have htick : tick s = s.setStatus .halted := by simp only [tick, step_of_exit hrun hrip]
    rw [runLoop_running n hrun, htick, runLoop_ended n (by simp)]
    rfl
  case halted =>
    rw [runLoop_ended n (by simp [hhalt])]
    exact ending_ok.mpr ⟨hhalt, rfl, rfl⟩
  case faulted =>
    rw [runLoop_ended n (by simp [hfault])]
    exact ending_fault.mpr hfault
  case result =>
    obtain ⟨hhalt, rfl, rfl⟩ := ending_ok.mp ((runLoop_eq_ending n s).symm.trans h)
    exact ⟨hhalt, rfl⟩
  case faults =>
    have htick : tick s = s.setStatus (.faulted f) := by simp only [tick, hstep]
    rw [runLoop_running n hrun, htick, runLoop_ended n (by simp)]
    rfl
  case okStays =>
    obtain ⟨hhalt, -⟩ := ending_ok.mp ((runLoop_eq_ending n s).symm.trans h)
    rw [runLoop_add k (by simp [hhalt]), h]
  case faultStays =>
    have hfault := ending_fault.mp ((runLoop_eq_ending n s).symm.trans h)
    rw [runLoop_add k (by simp [hfault]), h]

/-- The kind 0 is that of no fault. -/
theorem RunEnd.faultKind_eq_zero_iff (e : RunEnd) : e.faultKind = 0 ↔ ∀ f, e ≠ .fault f := by
  cases e with
  | fault f => simp [Fault.kindCode_ne_zero]
  | ok | outOfFuel => simp

/-- Settles O60: the end of a run is read off the run status after as many passes. -/
theorem runGivesBackTheFaultKindOfItsStatus : Obligations.RunGivesBackTheFaultKindOfItsStatus := by
  have hstatus {s : State} {n : Nat} {f : Fault} (h : runLoop n s = .fault f) : (tick^[n] s).status = .faulted f :=
    ending_fault.mp ((runLoop_eq_ending n s).symm.trans h)
  refine ⟨fun s n => ?_, fun s n => RunEnd.faultKind_eq_zero_iff _, fun s n a h => ⟨by rw [h]; rfl, hstatus h⟩,
    fun s n c h => ⟨by rw [h]; rfl, hstatus h⟩, rfl⟩
  rw [runLoop_eq_ending, ending_faultKind]

/-! ## Placing an instruction -/

theorem fetchable_iff (a : Word) : fetchable a = true ↔ Config.memBot ≤ a.toNat ∧ a.toNat < Config.memTop := by
  unfold fetchable
  cases hi : index a with
  | ok k => exact iff_of_true rfl ((index_ok_iff a k).mp hi).1
  | error f => exact iff_of_false nofun ((index_error_iff a f).mp hi).1

@[simp] theorem reg_putSlot (s : State) (t : Token) (r : Reg) : (s.putSlot t).reg r = s.reg r := rfl

/-- The head of a slot placed in the window stands at `Rip`, also where the slot is cut off at `MEM_TOP`. -/
theorem cell_putSlot {s : State} (t : Token) (h : (s.reg .rip).toNat < Config.memTop) :
    (s.putSlot t).cell (s.reg .rip).toNat = .insHead t := by
  obtain ⟨k, hk⟩ := Nat.exists_eq_add_of_lt h
  have htake : Config.memTop - (s.reg .rip).toNat = k + 1 := by omega
  rw [State.putSlot, cell_putAll, htake, serializeIns, List.take_succ_cons]
  simp

/-- What a placed instruction leaves to the next step: it runs, at an address of the window that holds the token. -/
theorem placeToken_spec (s : State) (t : Token) :
    (s.placeToken t).status = .running ∧ fetchable ((s.placeToken t).reg .rip) = true ∧
      (s.placeToken t).cell ((s.placeToken t).reg .rip).toNat = .insHead t := by
  unfold State.placeToken
  split
  case isTrue h => exact ⟨rfl, h, cell_putSlot t ((fetchable_iff _).mp h).2⟩
  case isFalse =>
    refine ⟨rfl, ?_, cell_putSlot t ?_⟩
    · rw [reg_putSlot, State.reg_setReg, if_pos rfl]; decide
    · rw [State.reg_setReg, if_pos rfl]; decide

/-- Settles O11: the step fetches the placed token. -/
theorem placedWordIsTheNextInstruction : Obligations.PlacedWordIsTheNextInstruction := by
  intro s nbits w i h
  obtain ⟨hrun, hfetchable, hcell⟩ := placeToken_spec s (tokenOfWord nbits w)
  have hwin := (fetchable_iff _).mp hfetchable
  have hdecode : decode (tokenOfWord nbits w) = .ok i := by
    unfold decodeTableWord at h
    cases hd : decode (tokenOfWord nbits w) with
    | ok j => rw [hd] at h; cases h; rfl
    | error c => rw [hd] at h; cases h
  refine step_of_fetchDecode hrun (fun hexit => ?_) (fetchDecode_ok.mpr ⟨_, fetch_ok.mpr ⟨hwin, hcell⟩, hdecode⟩)
  rw [State.withFetchWord] at hexit
  rw [hexit] at hwin
  exact absurd hwin (by decide)

/-! ## The load contract -/

theorem Image.load_of_wf {img : Image} (h : img.wf = true) : load img = some
    { State.reset with
      regs := State.reset.regs.set .rip img.entry
      mem := Memory.putAll [] img.textPos.toNat (img.textSeg ++ img.dataSeg) } := if_pos h

/-- The registers other than `Rip` and `Rsp` are 0 after reset (R22). -/
theorem State.reg_reset {r : Reg} (hrip : r ≠ .rip) (hrsp : r ≠ .rsp) : State.reset.reg r = 0 := by
  cases r with
  | rip => exact absurd rfl hrip
  | rsp => exact absurd rfl hrsp
  | _ => rfl

/-- Settles O12: the cells of the image are those of one `putAll` into the empty memory. -/
theorem loadLeavesTheLoadContract : Obligations.LoadLeavesTheLoadContract := by
  intro img hwf
  have hreg (r : Reg) := Regs.get_set State.reset.regs .rip r img.entry
  have hcell (x : Nat) :=
    cell_putAll (State.reset.setReg .rip img.entry) img.textPos.toNat x (img.textSeg ++ img.dataSeg)
  refine ⟨_, Image.load_of_wf hwf, hreg .rip, hreg .rsp, fun r hrip hrsp => ?other, rfl, rfl, fun k hk => ?text,
    fun k hk => ?data, fun k hk hout => ?fill⟩
  case other => exact (hreg r).trans ((if_neg hrip).trans (State.reg_reset hrip hrsp))
  case text =>
    refine .trans ?_ (congrArg some (hcell (img.textPos.toNat + k)).symm)
    rw [if_pos (by simp; omega), Nat.add_sub_cancel_left, List.getElem?_append_left hk,
      List.getElem?_eq_getElem hk, Option.getD_some]
  case data =>
    refine .trans ?_ (congrArg some (hcell (img.textPos.toNat + img.textSeg.length + k)).symm)
    rw [if_pos (by simp; omega), Nat.add_assoc, Nat.add_sub_cancel_left, List.getElem?_append_right (by omega),
      Nat.add_sub_cancel_left, List.getElem?_eq_getElem hk, Option.getD_some]
  case fill =>
    refine (hcell (0x400000 + k)).trans ?_
    rw [if_neg (by simp; omega)]
    exact congrArg Config.memFill (Nat.add_sub_cancel_left ..)

end Sys2Proof.Machine
end

section
/-! PROOFS. Inversion of the instructions by what they write, the frame of each class (10_state.md §2, §3), and the
obligations about every step that follow from them. -/

namespace Sys2Proof.Machine

open Claims

/-! ## What each class of instructions does when it completes -/

/-- An instruction that stores its result to an operand ends in that store and the advance of `Rip`; it writes the flags
before the store, if at all. -/
theorem exec_stored {i : Instr} {dst : Operand} {s t : State} (hdst : storedOperand i = some dst)
    (h : exec i s = .next t) :
    ∃ fl v u, store (s.setFlags fl) dst v = .ok u ∧ t = u.advance (s.reg .rip) ∧
      (touchesNoFlag i → fl = s.flags) := by
  cases i with
  | cmpq | pushq | popq | callq | retq | jmp | jEq | jNeq | jLt | jLe | jGt | jGe => cases hdst
  | movq src dst =>
    cases hdst
    simp only [exec, execMovq, dispatch_next, bind_ok, return_ok] at h
    obtain ⟨-, v, -, u, hu, rfl⟩ := h
    exact ⟨s.flags, v, u, hu, rfl, fun _ => rfl⟩
  | leaq src dst =>
    cases hdst
    obtain ⟨-, h⟩ := dispatch_next.mp h
    cases src with
    | imm n => cases h
    | reg r => cases h
    | mem m =>
      simp only [bind_ok, return_ok] at h
      obtain ⟨u, hu, rfl⟩ := h
      exact ⟨s.flags, ea s m, u, hu, rfl, fun _ => rfl⟩
  | addq src dst | subq src dst | imulq src dst | xorq src dst | orq src dst | andq src dst | shlq src dst
  | sarq src dst | shrq src dst =>
    cases hdst
    obtain ⟨-, h⟩ := dispatch_next.mp h
    obtain ⟨v, d, u, -, -, hu, rfl⟩ := updateBy_ok.mp h
    exact ⟨_, _, u, hu, rfl, by simp [touchesNoFlag, condOf]⟩
  | incq dst | decq dst | notq dst | negq dst =>
    cases hdst
    obtain ⟨-, h⟩ := dispatch_next.mp h
    obtain ⟨d, u, -, hu, rfl⟩ := updateAlone_ok.mp h
    exact ⟨_, _, u, hu, rfl, by simp [touchesNoFlag, condOf]⟩
  | setEq dst | setNeq dst | setLt dst | setLe dst | setGt dst | setGe dst =>
    cases hdst
    obtain ⟨-, h⟩ := dispatch_next.mp h
    obtain ⟨u, hu, rfl⟩ := setIf_ok.mp h
    exact ⟨s.flags, _, u, hu, rfl, fun _ => rfl⟩

theorem exec_cmpq_next {src dst : Operand} {s t : State} :
    exec (.cmpq src dst) s = .next t ↔ ∃ v d, valueOf s src = .ok v ∧ valueOf s dst = .ok d ∧
      t = (s.setFlags (flagEngine .sub d v s.flags)).advance (s.reg .rip) := by
  simp only [exec, execCmpq, dispatch_next, bind_ok, return_ok, shapeFault, true_and]
  constructor
  · rintro ⟨v, hv, d, hd, rfl⟩; exact ⟨v, d, hv, hd, rfl⟩
  · rintro ⟨v, d, hv, hd, rfl⟩; exact ⟨v, hv, d, hd, rfl⟩

theorem exec_pushq_next {src : Operand} {s t : State} :
    exec (.pushq src) s = .next t ↔ ∃ v u, valueOf (pushed s) src = .ok v ∧
      memWrite (pushed s) ((pushed s).reg .rsp) v = .ok u ∧ t = u.advance (s.reg .rip) := by
  simp only [exec, execPushq, dispatch_next, bind_ok, return_ok, shapeFault, true_and]
  constructor
  · rintro ⟨v, hv, u, hu, rfl⟩; exact ⟨v, u, hv, hu, rfl⟩
  · rintro ⟨v, u, hv, hu, rfl⟩; exact ⟨v, hv, u, hu, rfl⟩

theorem exec_popq_next {dst : Operand} {s t : State} (h : exec (.popq dst) s = .next t) :
    ∃ v u, memRead s (s.reg .rsp) = .ok v ∧ store s dst v = .ok u ∧ t = (popped u).advance (s.reg .rip) := by
  simp only [exec, execPopq, dispatch_next, bind_ok, return_ok] at h
  obtain ⟨-, v, hv, u, hu, rfl⟩ := h
  exact ⟨v, u, hv, hu, rfl⟩

theorem exec_callq_next {src : Operand} {s t : State} :
    exec (.callq src) s = .next t ↔ ∃ u a,
      memWrite (pushed s) ((pushed s).reg .rsp) (wrap64 ((s.reg .rip).toInt + 8)) = .ok u ∧
      valueOf u src = .ok a ∧ t = u.setReg .rip a := by
  simp only [exec, execCallq, dispatch_next, bind_ok, return_ok, shapeFault, true_and]
  constructor
  · rintro ⟨u, hu, a, ha, rfl⟩; exact ⟨u, a, hu, ha, rfl⟩
  · rintro ⟨u, a, hu, ha, rfl⟩; exact ⟨u, hu, a, ha, rfl⟩

theorem exec_retq_next {s t : State} :
    exec .retq s = .next t ↔ ∃ a, memRead s (s.reg .rsp) = .ok a ∧ t = popped (s.setReg .rip a) := by
  simp only [exec, execRetq, dispatch_next, bind_ok, return_ok, shapeFault, true_and]
  constructor <;> (rintro ⟨a, ha, rfl⟩; exact ⟨a, ha, rfl⟩)

/-- A conditional jump that completes is a `jumpIf` on its condition. -/
theorem exec_jumpIf_next {i : Instr} {cc : Cond} {s t : State} (hjump : isJump i = true) (hcc : condOf i = some cc)
    (h : exec i s = .next t) : ∃ src, jumpIf cc src s = .ok t := by
  cases i with
  | jEq src | jNeq src | jLt src | jLe src | jGt src | jGe src =>
    cases hcc
    simp only [exec, execJEq, execJNeq, execJLt, execJLe, execJGt, execJGe, dispatch_next] at h
    exact ⟨src, h.2⟩
  | jmp => cases hcc
  | _ => cases hjump

theorem exec_jmp_next {src : Operand} {s t : State} :
    exec (.jmp src) s = .next t ↔ ∃ a, valueOf s src = .ok a ∧ t = s.setReg .rip a := by
  simp only [exec, execJmp, dispatch_next, shapeFault, true_and, jumpTo_ok]

/-- A jump sets `Rip` alone. -/
theorem exec_jump_next {i : Instr} {s t : State} (hjump : isJump i = true) (h : exec i s = .next t) :
    ∃ a, t = s.setReg .rip a := by
  cases hcc : condOf i with
  | some cc =>
    obtain ⟨src, hif⟩ := exec_jumpIf_next hjump hcc h
    rcases jumpIf_ok.mp hif with ⟨-, a, -, ht⟩ | ⟨-, ht⟩
    · exact ⟨a, ht⟩
    · exact ⟨_, ht⟩
  | none =>
    cases i with
    | jmp src =>
      obtain ⟨a, -, ht⟩ := exec_jmp_next.mp h
      exact ⟨a, ht⟩
    | jEq | jNeq | jLt | jLe | jGt | jGe => cases hcc
    | _ => cases hjump

/-! ## Frames -/

theorem sameCells_of_mem {s t : State} (h : t.mem = s.mem) : SameCells s t := fun x => by simp only [State.cell, h]

/-- Settles O54: the frame of the store and of the advance. -/
theorem frameOfOperandStores : Obligations.FrameOfOperandStores := by
  intro i dst s t hdst h
  obtain ⟨fl, v, u, hu, rfl, -⟩ := exec_stored hdst h
  obtain ⟨-, -, -, hstatus, hreg, hmem, hwrite, -⟩ := store_ok hu
  refine ⟨fun r hrip hr => ?_, hstatus, fun hind => sameCells_of_mem (hmem hind), fun m hm => ?_⟩
  · rw [State.reg_advance, if_neg hrip, hreg, if_neg hr, State.reg_setFlags]
  · obtain ⟨-, -, -, -, -, hout, -⟩ := memWrite_ok (hwrite m hm)
    rwa [ea_setFlags] at hout

/-- The frame of a write at the stack top after `Rsp` was decremented. -/
theorem push_frame {s u : State} {v : Word} (h : memWrite (pushed s) ((pushed s).reg .rsp) v = .ok u) :
    (∀ r, r ≠ .rsp → u.reg r = s.reg r) ∧ u.reg .rsp = wrap64 ((s.reg .rsp).toInt - 8) ∧
      u.flags = s.flags ∧ u.status = s.status ∧ SameCellsOutside (wrap64 ((s.reg .rsp).toInt - 8)) s u := by
  obtain ⟨-, hregs, hflags, hstatus, -, hout, -⟩ := memWrite_ok h
  have hreg (r : Reg) : u.reg r = (pushed s).reg r := congrArg (Regs.get · r) hregs
  refine ⟨fun r hr => ?_, ?_, hflags, hstatus, ?_⟩
  · rw [hreg, pushed, State.reg_setReg, if_neg hr]
  · rw [hreg, pushed, State.reg_setReg, if_pos rfl]
  · rw [pushed, State.reg_setReg, if_pos rfl] at hout
    exact hout

/-- Settles O55: both write the quadword at the new `Rsp`, then set `Rip`. -/
theorem frameOfPushes : Obligations.FrameOfPushes := by
  intro i src s t hi h
  obtain ⟨v, u, a, hu, rfl⟩ : ∃ v u a, memWrite (pushed s) ((pushed s).reg .rsp) v = .ok u ∧ t = u.setReg .rip a := by
    rcases hi with rfl | rfl
    · obtain ⟨v, u, -, hu, ht⟩ := exec_pushq_next.mp h
      exact ⟨v, u, _, hu, ht⟩
    · obtain ⟨u, a, hu, -, ht⟩ := exec_callq_next.mp h
      exact ⟨_, u, a, hu, ht⟩
  obtain ⟨hreg, hrsp, hflags, hstatus, hcells⟩ := push_frame hu
  refine ⟨fun r hr => ?_, hrsp, hflags, hstatus, hcells⟩
  obtain ⟨hrsp, hrip⟩ : r ≠ .rsp ∧ r ≠ .rip := by simpa using hr
  rw [State.reg_setReg, if_neg hrip, hreg r hrsp]

/-- Settles O56: the frame of the store, then `Rsp` and `Rip`. -/
theorem frameOfPopq : Obligations.FrameOfPopq := by
  intro dst s t h
  obtain ⟨v, u, -, hu, rfl⟩ := exec_popq_next h
  obtain ⟨-, -, hflags, hstatus, hreg, hmem, hwrite, -⟩ := store_ok hu
  refine ⟨fun r hrip hrsp hr => ?_, fun hrsp => ?_, hflags, hstatus, fun hind => sameCells_of_mem (hmem hind),
    fun m hm => ?_⟩
  · rw [State.reg_advance, if_neg hrip, popped, State.reg_setReg, if_neg hrsp, hreg, if_neg hr]
  · rw [State.reg_advance, if_neg (by decide), popped, State.reg_setReg, if_pos rfl, hreg, if_neg hrsp]
  · obtain ⟨-, -, -, -, -, hout, -⟩ := memWrite_ok (hwrite m hm)
    exact hout

/-- Settles O57: no store, so the memory is the same data. -/
theorem frameOfNonStores : Obligations.FrameOfNonStores := by
  intro i s t h
  refine ⟨?cmpq, fun hjump => ?jump, ?retq⟩
  case cmpq =>
    rintro ⟨src, dst, rfl⟩
    obtain ⟨v, d, -, -, rfl⟩ := exec_cmpq_next.mp h
    refine ⟨fun r hr => ?_, fun _ => rfl, rfl⟩
    rw [State.reg_advance, if_neg (by simpa using hr), State.reg_setFlags]
  case jump =>
    obtain ⟨a, rfl⟩ := exec_jump_next hjump h
    refine ⟨fun r hr => ?_, fun _ => rfl, rfl, rfl⟩
    rw [State.reg_setReg, if_neg (by simpa using hr)]
  case retq =>
    rintro rfl
    obtain ⟨a, -, rfl⟩ := exec_retq_next.mp h
    refine ⟨fun r hr => ?_, rfl, fun _ => rfl, rfl, rfl⟩
    obtain ⟨hrsp, hrip⟩ : r ≠ .rsp ∧ r ≠ .rip := by simpa using hr
    rw [popped, State.reg_setReg, if_neg hrsp, State.reg_setReg, if_neg hrip]

/-! ## Flags -/

theorem updateBy_flags {op : AluOp} {src dst : Operand} {s t : State} (h : updateBy op src dst s = .ok t) :
    ∃ v d, valueOf s src = .ok v ∧ valueOf s dst = .ok d ∧ t.flags = flagEngine op d v s.flags := by
  obtain ⟨v, d, u, hv, hd, hu, rfl⟩ := updateBy_ok.mp h
  obtain ⟨-, -, hflags, -⟩ := store_ok hu
  exact ⟨v, d, hv, hd, hflags⟩

theorem updateAlone_flags {op : AluOp} {v : Word} {dst : Operand} {s t : State} (h : updateAlone op v dst s = .ok t) :
    ∃ d, valueOf s dst = .ok d ∧ t.flags = flagEngine op d v s.flags := by
  obtain ⟨d, u, hd, hu, rfl⟩ := updateAlone_ok.mp h
  obtain ⟨-, -, hflags, -⟩ := store_ok hu
  exact ⟨d, hd, hflags⟩

/-- R17: the instructions of its last row leave the flags. -/
theorem exec_flags_of_touchesNoFlag {i : Instr} {s t : State} (hi : touchesNoFlag i) (h : exec i s = .next t) :
    t.flags = s.flags := by
  cases hdst : storedOperand i with
  | some dst =>
    obtain ⟨fl, v, u, hu, rfl, hfl⟩ := exec_stored hdst h
    obtain ⟨-, -, hflags, -⟩ := store_ok hu
    exact hflags.trans (hfl hi)
  | none =>
    obtain ⟨-, hjumps, hretq⟩ := frameOfNonStores i s t h
    cases i with
    | pushq src =>
      obtain ⟨-, -, hflags, -⟩ := frameOfPushes _ src s t (.inl rfl) h
      exact hflags
    | callq src =>
      obtain ⟨-, -, hflags, -⟩ := frameOfPushes _ src s t (.inr rfl) h
      exact hflags
    | popq dst =>
      obtain ⟨-, -, hflags, -⟩ := frameOfPopq dst s t h
      exact hflags
    | retq =>
      obtain ⟨-, -, -, hflags, -⟩ := hretq rfl
      exact hflags
    | jmp | jEq | jNeq | jLt | jLe | jGt | jGe =>
      obtain ⟨-, -, hflags, -⟩ := hjumps rfl
      exact hflags
    | cmpq => simp [touchesNoFlag, condOf] at hi
    | _ => cases hdst

/-- R140: the effective count is the low six bits of the amount. -/
theorem shiftCount_eq (v : Word) : shiftCount v = v.toNat % 64 := by
  simp [shiftCount, BitVec.extractLsb'_toNat]

/-- R141 to R143: what a shift does to the flags, by its masked count. -/
theorem shiftFlags_eq (v r : Word) (ov : Bool) (old : Flags) : shiftFlags v r ov old =
    { of := if v.toNat % 64 = 1 then ov else old.of
      sf := if v.toNat % 64 ≠ 0 then decide (r.toInt < 0) else old.sf
      zf := if v.toNat % 64 ≠ 0 then decide (r = 0) else old.zf } := by
  simp only [shiftFlags, shiftFlagCount, Config.shiftFlagsUseMaskedAmount, if_true, shiftCount_eq, setSZ]
  by_cases h1 : v.toNat % 64 = 1
  · simp [h1]
  · by_cases h0 : v.toNat % 64 = 0 <;> simp [h0, h1]

/-- A shift with its count operand is the update of one of the three shift operations. -/
theorem exec_shift_next {i : Instr} {amt : Operand} {s t : State} (hamt : shiftAmount i = some amt)
    (h : exec i s = .next t) : ∃ op dst, op ∈ [AluOp.shl, .sar, .shr] ∧ updateBy op amt dst s = .ok t := by
  cases i with
  | shlq | sarq | shrq =>
    cases hamt
    obtain ⟨-, h⟩ := dispatch_next.mp h
    exact ⟨_, _, by simp, h⟩
  | _ => cases hamt

theorem flagEngine_of_shift {op : AluOp} (hop : op ∈ [AluOp.shl, .sar, .shr]) (d v : Word) (old : Flags) :
    ∃ ov, flagEngine op d v old = shiftFlags v (aluResult op d v) ov old := by
  fin_cases hop <;> exact ⟨_, rfl⟩

/-- Settles O58: by the flag engine's row of the operation. -/
theorem eachInstructionLeavesOrClearsTheseFlags : Obligations.EachInstructionLeavesOrClearsTheseFlags := by
  intro i s t h
  refine ⟨fun hi => exec_flags_of_touchesNoFlag hi h, ?imul, ?logic, fun amt v hamt hv => ?shift⟩
  case imul =>
    rintro ⟨a, b, rfl⟩
    obtain ⟨-, h⟩ := dispatch_next.mp h
    obtain ⟨v, d, -, -, hflags⟩ := updateBy_flags h
    rw [hflags]
    exact ⟨rfl, rfl⟩
  case logic =>
    rintro (⟨a, b, rfl | rfl | rfl⟩ | ⟨a, rfl⟩) <;> obtain ⟨-, h⟩ := dispatch_next.mp h
    case inr =>
      obtain ⟨d, -, hflags⟩ := updateAlone_flags h
      rw [hflags, flagEngine_of_logic (by simp)]
    all_goals
      obtain ⟨v, d, -, -, hflags⟩ := updateBy_flags h
      rw [hflags, flagEngine_of_logic (by simp)]
  case shift =>
    obtain ⟨op, dst, hop, h⟩ := exec_shift_next hamt h
    obtain ⟨v', d, hv', -, hflags⟩ := updateBy_flags h
    obtain rfl := Except.ok.inj (hv.symm.trans hv')
    obtain ⟨ov, hshift⟩ := flagEngine_of_shift hop d v s.flags
    rw [hflags, hshift, shiftFlags_eq]
    exact ⟨fun h0 => by simp [h0], fun h1 => if_neg h1⟩

/-! ## `Rip` -/

/-- Settles O59: by the advance, which is the last write of each. -/
theorem ripAdvancesByEightUnlessControl : Obligations.RipAdvancesByEightUnlessControl := by
  intro i s t h
  cases hdst : storedOperand i with
  | some dst =>
    obtain ⟨fl, v, u, -, rfl, -⟩ := exec_stored hdst h
    have hrip : (u.advance (s.reg .rip)).reg .rip = wrap64 ((s.reg .rip).toInt + 8) := State.reg_advance ..
    exact ⟨fun _ => hrip, fun _ _ _ => hrip⟩
  | none =>
    cases i with
    | cmpq src dst =>
      obtain ⟨v, d, -, -, rfl⟩ := exec_cmpq_next.mp h
      exact ⟨fun _ => State.reg_advance .., nofun⟩
    | pushq src =>
      obtain ⟨v, u, -, -, rfl⟩ := exec_pushq_next.mp h
      exact ⟨fun _ => State.reg_advance .., nofun⟩
    | popq dst =>
      obtain ⟨v, u, -, -, rfl⟩ := exec_popq_next h
      exact ⟨fun _ => State.reg_advance .., nofun⟩
    | callq src => exact ⟨fun hi => absurd (.inr (.inl ⟨src, rfl⟩)) hi, nofun⟩
    | retq => exact ⟨fun hi => absurd (.inr (.inr rfl)) hi, nofun⟩
    | jmp => exact ⟨fun hi => absurd (.inl rfl) hi, nofun⟩
    | jEq | jNeq | jLt | jLe | jGt | jGe =>
      refine ⟨fun hi => absurd (.inl rfl) hi, fun cc hcc hc => ?_⟩
      obtain ⟨src, hif⟩ := exec_jumpIf_next rfl hcc h
      rcases jumpIf_ok.mp hif with ⟨hc', -⟩ | ⟨-, rfl⟩
      · simp [hc] at hc'
      · exact State.reg_advance ..
    | _ => cases hdst

/-- The slot after an address of the window is not `EXIT_ADDR`. -/
theorem nextSlot_ne_exitAddr {a : Word} (h : Config.memBot ≤ a.toNat ∧ a.toNat < Config.memTop) :
    nextSlot a ≠ Config.exitAddr := by
  obtain ⟨hlo, hhi⟩ := inWindow_toInt_iff.mp h
  intro he
  have hnat := toNat_wrap64 (n := a.toInt + 8) (by omega) (by omega)
  have hexit : (wrap64 (a.toInt + 8)).toNat = 0xFDEAD := congrArg BitVec.toNat he
  omega

/-- Settles O16: another instruction advances `Rip`, and the slot after a fetched one is not `EXIT_ADDR`. -/
theorem onlyControlTransferReachesExit : Obligations.OnlyControlTransferReachesExit := by
  intro s t hrun hrip h hexit
  rcases step_next h with ⟨hhalt, -⟩ | ⟨-, hrip', -⟩ | ⟨-, -, i, hi, hexec⟩
  · simp [hrun] at hhalt
  · exact absurd hrip' hrip
  · refine ⟨i, hi, ?_⟩
    by_contra hnot
    obtain ⟨tok, hfetch, -⟩ := fetchDecode_ok.mp hi
    have hnext := (ripAdvancesByEightUnlessControl i s t hexec).1 hnot
    exact nextSlot_ne_exitAddr (fetch_ok.mp hfetch).1 (hnext.symm.trans hexit)

/-! ## Faults -/

/-- Everything a step of a running machine that faults can have done. -/
theorem step_fault {s : State} {f : Fault} (hrun : s.status = .running) (h : step s = .fault f) :
    fetchDecode s = .error f ∨ ∃ i, exec i s = .fault f := by
  simp only [step, hrun] at h
  split at h
  · cases h
  · split at h
    next hf => cases h; exact .inl hf
    next i _ => exact .inr ⟨i, h⟩

/-- The two ways a fetch fails (R40). -/
theorem fetch_error {s : State} {a : Word} {f : Fault} (h : fetch s a = .error f) :
    index a = .error f ∨ f = .malformed .notInsHead := by
  unfold fetch at h
  split at h
  next f' hi => cases h; exact .inl hi
  next => split at h <;> cases h <;> exact .inr rfl

/-- The one way fetch and decoding end in a `Segfault`. -/
theorem fetchDecode_segfault {s : State} {a : Word} (h : fetchDecode s = .error (.segfault a)) :
    index (s.reg .rip) = .error (.segfault a) := by
  unfold fetchDecode at h
  split at h
  next f hf => cases h; exact (fetch_error hf).resolve_right nofun
  next => split at h <;> cases h

/-- Settles O17: the fault of a fetch outside the window, or of an access. -/
theorem segfaultQuadwordIsNotWhollyInTheWindow : Obligations.SegfaultQuadwordIsNotWhollyInTheWindow := by
  intro s a hrun h
  rw [← quadInWindow_toInt_iff]
  rcases step_fault hrun h with hf | ⟨i, hexec⟩
  · have hi := fetchDecode_segfault hf
    obtain ⟨-, ha⟩ := (index_error_iff _ _).mp hi
    cases ha
    exact not_quadInWindow_of_index_error hi
  · rcases exec_fault hexec with ⟨c, -, hc⟩ | ⟨-, a', hq, ha⟩
    · cases hc
    · cases ha
      simp [hq]

end Sys2Proof.Machine
end

section
/-! PROOFS. Noninterference of the flags (10_state.md §3, "Readers"): the meanings that do not test a condition give,
from states that differ in their flags alone, the same fault or states that differ in their flags alone. -/

namespace Sys2Proof.Machine

open Claims

/-- Two results that are the same fault, or states that are equal but for their flags. -/
inductive AgreeButFlags : Except Fault State → Except Fault State → Prop where
  | ok (t : State) (fl : Flags) : AgreeButFlags (.ok t) (.ok (t.setFlags fl))
  | error (f : Fault) : AgreeButFlags (.error f) (.error f)

namespace AgreeButFlags

theorem bind {x y : Except Fault State} {k k' : State → Except Fault State} (h : AgreeButFlags x y)
    (hk : ∀ t fl, AgreeButFlags (k t) (k' (t.setFlags fl))) : AgreeButFlags (x >>= k) (y >>= k') := by
  cases h with
  | ok t fl => exact hk t fl
  | error f => exact .error f

/-- A value that both sides read alike. -/
theorem read {x : Except Fault Word} {k k' : Word → Except Fault State} (hk : ∀ v, AgreeButFlags (k v) (k' v)) :
    AgreeButFlags (x >>= k) (x >>= k') := by
  cases x with
  | ok v => exact hk v
  | error f => exact .error f

theorem memWrite (s : State) (fl : Flags) (a v : Word) :
    AgreeButFlags (memWrite s a v) (memWrite (s.setFlags fl) a v) := by
  unfold Machine.memWrite
  split
  · exact .ok _ fl
  · exact .error _

theorem store (s : State) (fl : Flags) (o : Operand) (v : Word) :
    AgreeButFlags (store s o v) (store (s.setFlags fl) o v) := by
  cases o with
  | imm n => exact .error _
  | reg r => exact .ok _ fl
  | mem m => simpa only [Machine.store, ea_setFlags] using memWrite s fl (ea s m) v

/-- A store after the flags were written, to whatever they were. -/
theorem store_setFlags (s : State) (fl fl' : Flags) (o : Operand) (v : Word) :
    AgreeButFlags (Machine.store (s.setFlags fl) o v) (Machine.store (s.setFlags fl') o v) :=
  store (s.setFlags fl) fl' o v

theorem updateBy (op : AluOp) (src dst : Operand) (s : State) (fl : Flags) :
    AgreeButFlags (updateBy op src dst s) (updateBy op src dst (s.setFlags fl)) := by
  simp only [Machine.updateBy, valueOf_setFlags, State.reg_setFlags]
  exact read fun v => read fun d => (store_setFlags s _ _ dst _).bind fun t fl' => .ok _ fl'

theorem updateAlone (op : AluOp) (v : Word) (dst : Operand) (s : State) (fl : Flags) :
    AgreeButFlags (updateAlone op v dst s) (updateAlone op v dst (s.setFlags fl)) := by
  simp only [Machine.updateAlone, valueOf_setFlags, State.reg_setFlags]
  exact read fun d => (store_setFlags s _ _ dst _).bind fun t fl' => .ok _ fl'

theorem jumpTo (src : Operand) (s : State) (fl : Flags) :
    AgreeButFlags (jumpTo src s) (jumpTo src (s.setFlags fl)) := by
  simp only [Machine.jumpTo, valueOf_setFlags]
  exact read fun a => .ok _ fl

end AgreeButFlags

theorem memRead_setFlags (s : State) (fl : Flags) (a : Word) : memRead (s.setFlags fl) a = memRead s a :=
  memRead_congr a fun _ _ => State.cell_setFlags ..

theorem setReg_setFlags (s : State) (fl : Flags) (r : Reg) (v : Word) :
    (s.setFlags fl).setReg r v = (s.setReg r v).setFlags fl := rfl

theorem growStack_setFlags (s : State) (fl : Flags) : (s.setFlags fl).growStack = s.growStack.setFlags fl := by
  rw [State.growStack, State.reg_setFlags, setReg_setFlags, State.growStack]

theorem shrinkStack_setFlags (s : State) (fl : Flags) : (s.setFlags fl).shrinkStack = s.shrinkStack.setFlags fl := by
  rw [State.shrinkStack, State.reg_setFlags, setReg_setFlags, State.shrinkStack]

/-- R17, "Readers": an instruction without a condition has the same effect from other flags, its flags apart. -/
theorem exec_agreeButFlags {i : Instr} (hi : condOf i = none) (s : State) (fl : Flags) :
    ∃ x y, AgreeButFlags x y ∧ exec i s = dispatch i x ∧ exec i (s.setFlags fl) = dispatch i y := by
  cases i with
  | jEq | jNeq | jLt | jLe | jGt | jGe | setEq | setNeq | setLt | setLe | setGt | setGe => cases hi
  | addq src dst | subq src dst | imulq src dst | xorq src dst | orq src dst | andq src dst | shlq src dst
  | sarq src dst | shrq src dst => exact ⟨_, _, .updateBy _ src dst s fl, rfl, rfl⟩
  | incq dst | decq dst | notq dst | negq dst => exact ⟨_, _, .updateAlone _ _ dst s fl, rfl, rfl⟩
  | jmp src => exact ⟨_, _, .jumpTo src s fl, rfl, rfl⟩
  | movq src dst =>
    refine ⟨_, _, ?_, rfl, rfl⟩
    simp only [valueOf_setFlags, State.reg_setFlags]
    exact .read fun v => (AgreeButFlags.store s fl dst v).bind fun t fl' => .ok _ fl'
  | leaq src dst =>
    refine ⟨_, _, ?_, rfl, rfl⟩
    cases src with
    | imm n => exact .error _
    | reg r => exact .error _
    | mem m =>
      simp only [ea_setFlags, State.reg_setFlags]
      exact (AgreeButFlags.store s fl dst (ea s m)).bind fun t fl' => .ok _ fl'
  | cmpq src dst =>
    refine ⟨_, _, ?_, rfl, rfl⟩
    simp only [valueOf_setFlags, State.reg_setFlags]
    exact .read fun v => .read fun d => .ok (State.advance (s.setFlags _) _) _
  | pushq src =>
    refine ⟨_, _, ?_, rfl, rfl⟩
    simp only [growStack_setFlags, valueOf_setFlags, State.reg_setFlags]
    exact .read fun v => (AgreeButFlags.memWrite _ fl _ v).bind fun t fl' => .ok _ fl'
  | popq dst =>
    refine ⟨_, _, ?_, rfl, rfl⟩
    simp only [memRead_setFlags, State.reg_setFlags]
    refine .read fun v => (AgreeButFlags.store s fl dst v).bind fun t fl' => ?_
    rw [shrinkStack_setFlags]
    exact .ok _ fl'
  | callq src =>
    refine ⟨_, _, ?_, rfl, rfl⟩
    simp only [growStack_setFlags, State.reg_setFlags]
    refine (AgreeButFlags.memWrite _ fl _ _).bind fun t fl' => ?_
    simp only [valueOf_setFlags]
    exact .read fun a => .ok _ fl'
  | retq =>
    refine ⟨_, _, ?_, rfl, rfl⟩
    simp only [memRead_setFlags, State.reg_setFlags, setReg_setFlags, shrinkStack_setFlags]
    exact .read fun a => .ok _ fl

/-- Settles O18: the two effects agree but for the flags, and the shape check does not look at the state. -/
theorem onlyConditionalsReadFlags : Obligations.OnlyConditionalsReadFlags := by
  intro i s fl hi
  obtain ⟨x, y, hxy, hx, hy⟩ := exec_agreeButFlags hi s fl
  rw [hx, hy]
  cases hxy with
  | error f =>
    refine ⟨fun t h => ?_, fun f h => h⟩
    cases (dispatch_next.mp h).2
  | ok t fl' =>
    refine ⟨fun u h => ?_, fun f h => ?_⟩
    · obtain ⟨hshape, hu⟩ := dispatch_next.mp h
      cases hu
      exact ⟨fl', dispatch_next.mpr ⟨hshape, rfl⟩⟩
    · rcases dispatch_fault.mp h with ⟨c, hc, rfl⟩ | ⟨-, hf⟩
      · exact dispatch_of_shapeFault _ hc
      · cases hf

end Sys2Proof.Machine
end

section
/-! PROOFS. The obligations of 40_operands_moves.md §2 about `Leaq` (R96) and of 41_alu.md about the arithmetic
instructions (R112 to R114, R118, R119, R121, R122), and the signed reading of the conditions (R160). -/

namespace Sys2Proof.Machine

open Claims

/-! ## `Leaq` -/

/-- Settles O31: the shape check decides first, then the store; the source is not read. -/
theorem leaqStoresTheEffectiveAddress : Obligations.LeaqStoresTheEffectiveAddress := by
  intro src dst s
  refine ⟨assemble_header 14 0 2 _ _, fun hsrc => exec_of_shapeFault s (leaqShape_of_not_mem hsrc), ?_⟩
  rintro m rfl
  have hshape : shapeFault (.leaq (.mem m) dst) = storeShape dst := rfl
  refine ⟨fun hi => ?_, fun f hi ht => ?_, fun hi hdst => ?_⟩
  · exact exec_of_shapeFault s (hshape.trans (storeShape_of_isImm hi))
  · exact dispatch_error (hshape.trans (storeShape_of_not_isImm hi)) (bind_error.mpr (.inl ht))
  · obtain ⟨t, ht⟩ := store_of_reaches (ea s m) hi hdst
    exact ⟨t, ht, dispatch_advance (hshape.trans (storeShape_of_not_isImm hi)) (bind_ok.mpr ⟨t, ht, rfl⟩)⟩

/-! ## The sign rules of `OF` as propositions -/

theorem eq_minWord_iff (v : Word) : v = minWord ↔ v.toInt = -2 ^ 63 :=
  BitVec.toInt_inj.symm.trans (by rw [show minWord.toInt = -2 ^ 63 by decide])

theorem addOverflow_eq (d v r : Word) :
    addOverflow d v r = decide ((d.toInt < 0 ↔ v.toInt < 0) ∧ ¬ (r.toInt < 0 ↔ d.toInt < 0)) := by
  rw [Bool.eq_iff_iff]
  simp only [addOverflow, sign, Bool.and_eq_true, beq_iff_eq, bne_iff_ne, ne_eq, decide_eq_decide,
    decide_eq_true_eq]

theorem subOverflow_eq (d v r : Word) : subOverflow d v r =
    decide ((¬ (d.toInt < 0 ↔ v.toInt < 0) ∧ ¬ (r.toInt < 0 ↔ d.toInt < 0)) ∨ v.toInt = -2 ^ 63) := by
  rw [Bool.eq_iff_iff]
  simp only [subOverflow, sign, Bool.or_eq_true, Bool.and_eq_true, beq_iff_eq, bne_iff_ne, ne_eq,
    decide_eq_decide, decide_eq_true_eq, eq_minWord_iff]

/-- R113, R122: all three flags of a subtraction. -/
theorem flagEngine_sub (d v : Word) (old : Flags) : flagEngine .sub d v old =
    { of := decide ((¬ (d.toInt < 0 ↔ v.toInt < 0) ∧ ¬ ((wrap64 (d.toInt - v.toInt)).toInt < 0 ↔ d.toInt < 0)) ∨
        v.toInt = -2 ^ 63)
      sf := decide ((wrap64 (d.toInt - v.toInt)).toInt < 0)
      zf := decide (wrap64 (d.toInt - v.toInt) = 0) } := by
  rw [← subOverflow_eq]
  rfl

/-- R112: all three flags of an addition. -/
theorem flagEngine_add (d v : Word) (old : Flags) : flagEngine .add d v old =
    { of := decide ((d.toInt < 0 ↔ v.toInt < 0) ∧ ¬ ((wrap64 (d.toInt + v.toInt)).toInt < 0 ↔ d.toInt < 0))
      sf := decide ((wrap64 (d.toInt + v.toInt)).toInt < 0)
      zf := decide (wrap64 (d.toInt + v.toInt) = 0) } := by
  rw [← addOverflow_eq]
  rfl

/-! ## Arithmetic -/

/-- Settles O32: `Addq` is the dispatch of the update by `add`. -/
theorem addqAddsAndSetsAllFlags : Obligations.AddqAddsAndSetsAllFlags :=
  updateRule_of_dispatch (op := .add) (fun _ _ => assemble_header 1 0 2 _ _) (fun _ _ => rfl) (fun _ _ _ => rfl)
    (fun _ _ => rfl) flagEngine_add

/-- Settles O33: `Subq` is the dispatch of the update by `sub`. -/
theorem subqSubtractsAndSetsAllFlags : Obligations.SubqSubtractsAndSetsAllFlags :=
  updateRule_of_dispatch (op := .sub) (fun _ _ => assemble_header 2 0 2 _ _) (fun _ _ => rfl) (fun _ _ _ => rfl)
    (fun _ _ => rfl) flagEngine_sub

/-- Settles O34: `Imulq` is the dispatch of the update by `imul`, which writes one flag. -/
theorem imulqMultipliesAndWritesOnlyOverflow : Obligations.ImulqMultipliesAndWritesOnlyOverflow :=
  updateRule_of_dispatch (op := .imul) (fun _ _ => assemble_header 3 0 2 _ _) (fun _ _ => rfl) (fun _ _ _ => rfl)
    (fun _ _ => rfl) (fun _ _ _ => rfl)

theorem toInt_zero : (0 : Word).toInt = 0 := by decide

theorem toInt_one : (1 : Word).toInt = 1 := by decide

/-- Settles O36: the updates of `add` and `sub` with the source 1, which is positive and not `MIN`. -/
theorem incqDecqStepByOne : Obligations.IncqDecqStepByOne := by
  refine ⟨?incq, ?decq⟩
  case incq =>
    refine unaryRule_of_dispatch (op := .add) (v := 1) (fun _ => assemble_header 10 0 1 _ _) (fun _ => rfl)
      (fun _ _ => rfl) (fun d => by simp only [aluResult, toInt_one]) (fun d old => ?_)
    simp [flagEngine_add]
  case decq =>
    refine unaryRule_of_dispatch (op := .sub) (v := 1) (fun _ => assemble_header 11 0 1 _ _) (fun _ => rfl)
      (fun _ _ => rfl) (fun d => by simp only [aluResult, toInt_one]) (fun d old => ?_)
    simp [flagEngine_sub]

/-- R121: all three flags of a negation. -/
theorem flagEngine_neg (d v : Word) (old : Flags) : flagEngine .neg d v old =
    { of := decide (d.toInt = -2 ^ 63)
      sf := decide ((wrap64 (-d.toInt)).toInt < 0)
      zf := decide (wrap64 (-d.toInt) = 0) } := by
  simp only [← eq_minWord_iff]
  rfl

/-- Settles O37: `Negq` is the dispatch of the update by `neg`, which has no source. -/
theorem negqNegatesAndSetsAllFlags : Obligations.NegqNegatesAndSetsAllFlags :=
  unaryRule_of_dispatch (op := .neg) (v := 0) (fun _ => assemble_header 13 0 1 _ _) (fun _ => rfl) (fun _ _ => rfl)
    (fun _ => rfl) (flagEngine_neg · 0)

/-- Settles O38: two reads, then the flags of `Subq`. -/
theorem cmpqSetsFlagsAlone : Obligations.CmpqSetsFlagsAlone := by
  intro src dst s
  refine ⟨assemble_header 15 0 2 _ _, fun f hv => ?_, fun v f hv hd => ?_, fun hsrc hdst => ?_⟩
  · exact dispatch_error (i := .cmpq src dst) rfl (bind_error.mpr (.inl hv))
  · exact dispatch_error (i := .cmpq src dst) rfl (bind_error.mpr (.inr ⟨v, hv, bind_error.mpr (.inl hd)⟩))
  · obtain ⟨v, hv⟩ := valueOf_of_reaches hsrc
    obtain ⟨d, hd⟩ := valueOf_of_reaches hdst
    refine ⟨v, d, hv, hd, exec_cmpq_next.mpr ⟨v, d, hv, hd, ?_⟩⟩
    rw [flagEngine_sub]
    rfl

/-! ## Exact results -/

theorem inRange_toInt (v : Word) : inRange v.toInt := by
  have := BitVec.le_toInt v
  have := BitVec.toInt_lt (x := v)
  exact ⟨by omega, by omega⟩

/-- R7: a number of the signed range is its own wrap. -/
theorem toInt_wrap64 {n : Int} (h : inRange n) : (wrap64 n).toInt = n := by
  obtain ⟨hlo, hhi⟩ := h
  rw [wrap64, BitVec.toInt_ofInt]
  exact Int.bmod_eq_of_le (by omega) (by omega)

/-- R7: the wrap of a number that leaves the signed range by at most `2^63`. -/
theorem toInt_wrap64_cases {n : Int} (hlo : -2 ^ 64 ≤ n) (hhi : n ≤ 2 ^ 64) :
    (n < -2 ^ 63 ∧ (wrap64 n).toInt = n + 2 ^ 64) ∨ (inRange n ∧ (wrap64 n).toInt = n) ∨
      (2 ^ 63 ≤ n ∧ (wrap64 n).toInt = n - 2 ^ 64) := by
  rw [wrap64, BitVec.toInt_ofInt, Int.bmod_def, inRange]
  split <;> omega

theorem effect_of_exec_next {i : Instr} {s t : State} {e : Except Fault State} (hexec : exec i s = dispatch i e)
    (h : exec i s = .next t) : e = .ok t := (dispatch_next.mp (hexec ▸ h)).2

/-- The result and the flags of an update of a register other than `Rip`. -/
theorem updateBy_reg {op : AluOp} {src : Operand} {r : Reg} {s t : State} {v : Word} (hr : r ≠ .rip)
    (hv : valueOf s src = .ok v) (h : updateBy op src (.reg r) s = .ok t) :
    t.reg r = aluResult op (s.reg r) v ∧ t.flags = flagEngine op (s.reg r) v s.flags := by
  obtain ⟨v', d, u, hv', hd, hu, rfl⟩ := updateBy_ok.mp h
  obtain rfl := Except.ok.inj (hv.symm.trans hv')
  cases hd
  obtain ⟨-, -, hflags, -, hreg, -⟩ := store_ok hu
  exact ⟨by rw [State.reg_advance, if_neg hr, hreg, if_pos rfl], hflags⟩

theorem updateAlone_reg {op : AluOp} {r : Reg} {s t : State} {v : Word} (hr : r ≠ .rip)
    (h : updateAlone op v (.reg r) s = .ok t) :
    t.reg r = aluResult op (s.reg r) v ∧ t.flags = flagEngine op (s.reg r) v s.flags := by
  obtain ⟨d, u, hd, hu, rfl⟩ := updateAlone_ok.mp h
  cases hd
  obtain ⟨-, -, hflags, -, hreg, -⟩ := store_ok hu
  exact ⟨by rw [State.reg_advance, if_neg hr, hreg, if_pos rfl], hflags⟩

/-- The sign rule of an addition is the range test. -/
theorem add_sign_rule (d v : Word) :
    ((d.toInt < 0 ↔ v.toInt < 0) ∧ ¬ ((wrap64 (d.toInt + v.toInt)).toInt < 0 ↔ d.toInt < 0)) ↔
      ¬ inRange (d.toInt + v.toInt) := by
  obtain ⟨hdlo, hdhi⟩ := inRange_toInt d
  obtain ⟨hvlo, hvhi⟩ := inRange_toInt v
  have hwrap := toInt_wrap64_cases (n := d.toInt + v.toInt) (by omega) (by omega)
  unfold inRange at *
  omega

/-- The sign rule of a subtraction is the range test. -/
theorem sub_sign_rule (d v : Word) :
    (¬ (d.toInt < 0 ↔ v.toInt < 0) ∧ ¬ ((wrap64 (d.toInt - v.toInt)).toInt < 0 ↔ d.toInt < 0)) ↔
      ¬ inRange (d.toInt - v.toInt) := by
  obtain ⟨hdlo, hdhi⟩ := inRange_toInt d
  obtain ⟨hvlo, hvhi⟩ := inRange_toInt v
  have hwrap := toInt_wrap64_cases (n := d.toInt - v.toInt) (by omega) (by omega)
  unfold inRange at *
  omega

theorem mulOverflow_iff (d v : Word) : mulOverflow d v = true ↔ ¬ inRange (d.toInt * v.toInt) := by
  rw [mulOverflow, decide_eq_true_iff, exactProduct, inRange]
  omega

/-- How `OF` and the result of an operation with the exact result `n` are related: `OF` is `p`, which holds wherever `n`
does not fit, so that without it the result is exact. -/
theorem overflow_and_exact {t : State} {r : Reg} {n : Int} {p : Prop} (hreg : t.reg r = wrap64 n)
    (hof : t.flags.of = true ↔ p) (hp : ¬ inRange n → p) :
    (t.flags.of = true ↔ p) ∧ (t.flags.of = false → (t.reg r).toInt = n) := by
  refine ⟨hof, fun hfalse => ?_⟩
  have hfits : inRange n := by
    by_contra hn
    simp [hof.mpr (hp hn)] at hfalse
  rw [hreg, toInt_wrap64 hfits]

/-- Settles O39: the sign rules are the range test, and a result that fits is exact. -/
theorem overflowMeansNoFitOrSubtractedMin : Obligations.OverflowMeansNoFitOrSubtractedMin := by
  intro src r s t v hr hv
  refine ⟨fun h => ?add, fun h => ?sub, fun h => ?imul, fun h => ?inc, fun h => ?dec, fun h => ?neg⟩
  case add =>
    obtain ⟨hreg, hflags⟩ := updateBy_reg (op := .add) hr hv (effect_of_exec_next rfl h)
    refine overflow_and_exact hreg ?_ id
    rw [hflags, flagEngine_add, decide_eq_true_iff, add_sign_rule]
  case sub =>
    obtain ⟨hreg, hflags⟩ := updateBy_reg (op := .sub) hr hv (effect_of_exec_next rfl h)
    refine overflow_and_exact hreg ?_ .inl
    rw [hflags, flagEngine_sub, decide_eq_true_iff, sub_sign_rule]
  case imul =>
    obtain ⟨hreg, hflags⟩ := updateBy_reg (op := .imul) hr hv (effect_of_exec_next rfl h)
    refine overflow_and_exact hreg ?_ id
    rw [hflags]
    exact mulOverflow_iff (s.reg r) v
  case inc =>
    obtain ⟨hreg, hflags⟩ := updateAlone_reg (op := .add) (v := 1) hr (effect_of_exec_next rfl h)
    have hrange := inRange_toInt (s.reg r)
    rw [aluResult, toInt_one] at hreg
    refine overflow_and_exact hreg ?_ ?_
    · rw [hflags, flagEngine_add, decide_eq_true_iff, add_sign_rule, toInt_one]
      unfold inRange at *
      omega
    · unfold inRange at *
      omega
  case dec =>
    obtain ⟨hreg, hflags⟩ := updateAlone_reg (op := .sub) (v := 1) hr (effect_of_exec_next rfl h)
    have hrange := inRange_toInt (s.reg r)
    rw [aluResult, toInt_one] at hreg
    refine overflow_and_exact hreg ?_ ?_
    · rw [hflags, flagEngine_sub, decide_eq_true_iff, sub_sign_rule, toInt_one]
      unfold inRange at *
      omega
    · unfold inRange at *
      omega
  case neg =>
    obtain ⟨hreg, hflags⟩ := updateAlone_reg (op := .neg) (v := 0) hr (effect_of_exec_next rfl h)
    have hrange := inRange_toInt (s.reg r)
    refine overflow_and_exact hreg ?_ id
    rw [hflags, flagEngine_neg, decide_eq_true_iff]
    unfold inRange at *
    omega

/-! ## Conditions after a comparison -/

theorem condHolds_neq (fl : Flags) : condHolds .neq fl = !condHolds .eq fl := rfl

theorem condHolds_ge (fl : Flags) : condHolds .ge fl = !condHolds .lt fl := by simp [condHolds, bne]

theorem condHolds_gt (fl : Flags) : condHolds .gt fl = !condHolds .le fl := by simp [condHolds, bne]

/-- After the flags of `b - a`, `ZF` says whether the two are equal. -/
theorem condHolds_eq_sub (b a : Word) (old : Flags) : condHolds .eq (flagEngine .sub b a old) = true ↔ b = a := by
  obtain ⟨halo, hahi⟩ := inRange_toInt a
  obtain ⟨hblo, hbhi⟩ := inRange_toInt b
  have hwrap := toInt_wrap64_cases (n := b.toInt - a.toInt) (by omega) (by omega)
  rw [flagEngine_sub, condHolds, decide_eq_true_iff, ← BitVec.toInt_inj, ← BitVec.toInt_inj, toInt_zero]
  unfold inRange at *
  omega

/-- After the flags of `b - a`, `SF` differs from `OF` exactly for a smaller `b`, unless `a` is `MIN`. -/
theorem condHolds_lt_sub {b a : Word} (old : Flags) (ha : a.toInt ≠ -2 ^ 63) :
    condHolds .lt (flagEngine .sub b a old) = true ↔ b.toInt < a.toInt := by
  obtain ⟨halo, hahi⟩ := inRange_toInt a
  obtain ⟨hblo, hbhi⟩ := inRange_toInt b
  have hwrap := toInt_wrap64_cases (n := b.toInt - a.toInt) (by omega) (by omega)
  rw [flagEngine_sub, condHolds, bne_iff_ne, ne_eq, decide_eq_decide]
  unfold inRange at *
  omega

/-- After the flags of `b - MIN` for a negative `b`, `OF` is forced although the difference fits. -/
theorem condHolds_lt_sub_min {b a : Word} (old : Flags) (ha : a.toInt = -2 ^ 63) (hb : b.toInt < 0) :
    condHolds .lt (flagEngine .sub b a old) = true := by
  obtain ⟨hblo, -⟩ := inRange_toInt b
  have hwrap := toInt_wrap64 (n := b.toInt - a.toInt) ⟨by omega, by omega⟩
  rw [flagEngine_sub, condHolds, bne_iff_ne, ne_eq, decide_eq_decide]
  omega

theorem condHolds_le_iff (fl : Flags) :
    condHolds .le fl = true ↔ condHolds .lt fl = true ∨ condHolds .eq fl = true :=
  Iff.of_eq (Bool.or_eq_true ..)

/-- Settles O47: `Lt` and `Eq` are read off the flags of the difference, and the other four follow from the two. -/
theorem conditionsAfterCompareAreSigned : Obligations.ConditionsAfterCompareAreSigned := by
  refine ⟨fun fl => ⟨rfl, rfl, rfl, rfl, rfl, rfl, condHolds_neq fl, condHolds_ge fl, condHolds_gt fl⟩,
    fun src dst s t a b ha hb h => ?_, ⟨rfl, rfl, rfl, rfl, rfl, rfl⟩⟩
  obtain ⟨a', b', ha', hb', rfl⟩ := exec_cmpq_next.mp h
  obtain rfl := Except.ok.inj (ha.symm.trans ha')
  obtain rfl := Except.ok.inj (hb.symm.trans hb')
  rw [State.flags_advance, State.flags_setFlags]
  have heq := condHolds_eq_sub b a s.flags
  refine ⟨heq, by rw [condHolds_neq, Bool.not_eq_true', ← Bool.not_eq_true, heq], fun hmin => ?_, fun hmin hneg => ?_⟩
  · have hlt := condHolds_lt_sub (b := b) s.flags hmin
    have hle : condHolds .le (flagEngine .sub b a s.flags) = true ↔ b.toInt ≤ a.toInt := by
      rw [condHolds_le_iff, hlt, heq, ← BitVec.toInt_inj, Int.le_iff_lt_or_eq]
    refine ⟨hlt, hle, ?_, ?_⟩
    · rw [condHolds_gt, Bool.not_eq_true', ← Bool.not_eq_true, hle, Int.not_le]
    · rw [condHolds_ge, Bool.not_eq_true', ← Bool.not_eq_true, hlt, Int.not_lt]
  · have hlt := condHolds_lt_sub_min s.flags hmin hneg
    have hle := (condHolds_le_iff _).mpr (.inl hlt)
    exact ⟨hlt, hle, by rw [condHolds_gt, hle]; rfl, by rw [condHolds_ge, hlt]; rfl⟩

end Sys2Proof.Machine
end

section
/-! PROOFS. The obligations of 42_shifts.md (R140 to R143). -/

namespace Sys2Proof.Machine

open Claims

/-- A count operand is no memory operand: it is always reached (R140). -/
theorem reaches_of_count {s : State} {amt : Operand} (h : (∃ n, amt = .imm n) ∨ amt = .reg .rcx) :
    s.reaches amt = true := by
  rcases h with ⟨n, rfl⟩ | rfl <;> rfl

/-- An instruction that is the dispatch of a shift by its first operand obeys the rule of its form. -/
theorem shiftRule_of_dispatch {mk : Operand → Operand → Instr} {h : BitVec 16} {op : AluOp} {res : Word → Nat → Word}
    {ov : Word → Bool} (hheader : ∀ amt dst, HeaderIs (mk amt dst) h)
    (hshape : ∀ amt dst, shapeFault (mk amt dst) = shiftShape amt dst)
    (hexec : ∀ amt dst s, exec (mk amt dst) s = dispatch (mk amt dst) (updateBy op amt dst s))
    (hres : ∀ d a, aluResult op d a = res d (shiftCount a))
    (hfl : ∀ d a old, flagEngine op d a old = shiftFlags a (aluResult op d a) (ov d) old) :
    ShiftRule mk h res ov := by
  intro amt dst s
  have hstore (hc : (∃ n, amt = .imm n) ∨ amt = .reg .rcx) : shapeFault (mk amt dst) = storeShape dst :=
    (hshape amt dst).trans (shiftShape_of_count dst hc)
  refine ⟨hheader amt dst, fun himm hrcx => ?_, fun hc hi => ?_, fun f hc hi hd => ?_, fun hc hi hdst => ?_⟩
  · exact exec_of_shapeFault s ((hshape amt dst).trans (shiftShape_of_not_count himm hrcx))
  · exact exec_of_shapeFault s ((hstore hc).trans (storeShape_of_isImm hi))
  · obtain ⟨a, ha⟩ := valueOf_of_reaches (reaches_of_count (s := s) hc)
    rw [hexec]
    exact dispatch_error ((hstore hc).trans (storeShape_of_not_isImm hi)) (updateBy_of_dst_error ha hd)
  · obtain ⟨a, ha⟩ := valueOf_of_reaches (reaches_of_count (s := s) hc)
    obtain ⟨d, hd⟩ := valueOf_of_reaches hdst
    obtain ⟨t, ht⟩ := store_setFlags_of_reaches (flagEngine op d a s.flags) (aluResult op d a) hi hdst
    refine ⟨a, d, t, ha, hd, ?_, ?_⟩
    · rw [← ht, hfl, shiftFlags_eq, hres, shiftCount_eq]
    · rw [hexec]
      exact dispatch_advance ((hstore hc).trans (storeShape_of_not_isImm hi))
        (updateBy_ok.mpr ⟨a, d, t, ha, hd, ht, rfl⟩)

/-- Settles O40: the result of `Shlq` is the shift itself. -/
theorem shlqShiftsLeft : Obligations.ShlqShiftsLeft :=
  shiftRule_of_dispatch (op := .shl) (fun _ _ => assemble_header 7 0 2 _ _) (fun _ _ => rfl) (fun _ _ _ => rfl)
    (fun _ _ => rfl) (fun _ _ _ => rfl)

/-- R142: shifting right with copies of the sign bit rounds toward minus infinity. -/
theorem sshiftRight_eq_wrap64 (d : Word) (c : Nat) : d.sshiftRight c = wrap64 (d.toInt / 2 ^ c) := by
  rw [BitVec.sshiftRight, wrap64, Int.shiftRight_eq_div_pow]
  norm_cast

/-- Settles O41: the result of `Sarq` is the floor of the quotient. -/
theorem sarqDividesRoundingDown : Obligations.SarqDividesRoundingDown :=
  shiftRule_of_dispatch (op := .sar) (fun _ _ => assemble_header 8 0 2 _ _) (fun _ _ => rfl) (fun _ _ _ => rfl)
    (fun d a => sshiftRight_eq_wrap64 d (shiftCount a)) (fun _ _ _ => rfl)

/-- R143: shifting right with zeros in is the quotient of the unsigned number. -/
theorem ushiftRight_eq_ofNat (d : Word) (c : Nat) : d >>> c = BitVec.ofNat 64 (d.toNat / 2 ^ c) := by
  rw [← Nat.shiftRight_eq_div_pow, ← BitVec.toNat_ushiftRight, BitVec.ofNat_toNat, BitVec.setWidth_eq]

/-- Settles O42: the result of `Shrq` is the unsigned quotient. -/
theorem shrqShiftsInZeros : Obligations.ShrqShiftsInZeros :=
  shiftRule_of_dispatch (op := .shr) (fun _ _ => assemble_header 9 0 2 _ _) (fun _ _ => rfl) (fun _ _ _ => rfl)
    (fun d a => ushiftRight_eq_ofNat d (shiftCount a)) (fun _ _ _ => rfl)

end Sys2Proof.Machine
end

section
/-! PROOFS. The obligations of 43_stack.md (R151 to R153) and of 44_control.md about conditional jumps (R162) and calls
(R169). -/

namespace Sys2Proof.Machine

open Claims

/-! ## Pushes and pops -/

/-- Settles O43: the operand is read, then the write below the stack top is made. -/
theorem pushqStoresBelowTheStackTop : Obligations.PushqStoresBelowTheStackTop := by
  intro src s
  refine ⟨assemble_header 16 0 1 _ _, fun f hv => ?_, fun v f hv ht => ?_, fun hsrc hq => ?_⟩
  · exact dispatch_error (i := .pushq src) rfl (bind_error.mpr (.inl hv))
  · exact dispatch_error (i := .pushq src) rfl (bind_error.mpr (.inr ⟨v, hv, bind_error.mpr (.inl ht)⟩))
  · obtain ⟨v, hv⟩ := valueOf_of_reaches hsrc
    obtain ⟨t, ht⟩ := memWrite_of_inWindow (pushed s) v hq
    exact ⟨v, t, hv, ht, exec_pushq_next.mpr ⟨v, t, hv, ht, rfl⟩⟩

/-- Settles O44: the stack top is read, then the store is made, then `Rsp` is written. -/
theorem popqStoresTheStackTop : Obligations.PopqStoresTheStackTop := by
  intro dst s
  have hshape : shapeFault (.popq dst) = storeShape dst := rfl
  refine ⟨assemble_header 17 0 1 _ _, fun hi => ?_, fun f hi hv => ?_, fun v f hi hv ht => ?_, fun hi hq hdst => ?_⟩
  · exact exec_of_shapeFault s (hshape.trans (storeShape_of_isImm hi))
  · exact dispatch_error (hshape.trans (storeShape_of_not_isImm hi)) (bind_error.mpr (.inl hv))
  · exact dispatch_error (hshape.trans (storeShape_of_not_isImm hi))
      (bind_error.mpr (.inr ⟨v, hv, bind_error.mpr (.inl ht)⟩))
  · obtain ⟨v, hv⟩ := memRead_of_inWindow s hq
    obtain ⟨t, ht⟩ := store_of_reaches v hi hdst
    exact ⟨v, t, hv, ht, dispatch_advance (t := popped t) (hshape.trans (storeShape_of_not_isImm hi))
      (bind_ok.mpr ⟨v, hv, bind_ok.mpr ⟨t, ht, rfl⟩⟩)⟩

theorem memRead_setReg (s : State) (r : Reg) (v a : Word) : memRead (s.setReg r v) a = memRead s a :=
  memRead_congr a fun _ _ => State.cell_setReg ..

/-- After a push the stack top reads as the pushed value. -/
theorem memRead_of_push {s u : State} {v : Word} (h : memWrite (pushed s) ((pushed s).reg .rsp) v = .ok u) :
    memRead u (u.reg .rsp) = .ok v := by
  obtain ⟨-, hrsp, -⟩ := push_frame h
  rw [pushed, State.reg_setReg, if_pos rfl] at h
  rw [hrsp, memRead_memWrite h]

/-- The value a store leaves in its operand, which a store does not move. -/
theorem valueOf_of_store {s t : State} {o : Operand} {v : Word} (h : store s o v = .ok t) : valueOf t o = .ok v := by
  obtain ⟨-, -, -, -, hreg, -, hwrite, -⟩ := store_ok h
  cases o with
  | imm n => cases h
  | reg r => exact congrArg Except.ok ((hreg r).trans (if_pos rfl))
  | mem m =>
    have hea : ea t m = ea s m := by cases m <;> simp [ea, hreg]
    rw [valueOf, hea]
    exact memRead_memWrite (hwrite m rfl)

/-- Settles O45: each operand is evaluated at its place in the sequence of R151, R152 and R169. -/
theorem stackOperandsSeeRspInTheWrittenOrder : Obligations.StackOperandsSeeRspInTheWrittenOrder := by
  intro s t
  refine ⟨fun h => ?push, fun v hv h => ?popRsp, fun v hv h => ?popInd, fun h => ?call⟩
  case push =>
    obtain ⟨v, u, hv, hu, rfl⟩ := exec_pushq_next.mp h
    obtain rfl := Except.ok.inj hv
    rw [State.reg_advance, if_neg (by decide), State.advance, memRead_setReg, memRead_of_push hu]
    rfl
  case popRsp =>
    obtain ⟨v', u, hv', hu, rfl⟩ := exec_popq_next h
    obtain rfl := Except.ok.inj (hv.symm.trans hv')
    cases hu
    rfl
  case popInd =>
    obtain ⟨v', u, hv', hu, rfl⟩ := exec_popq_next h
    obtain rfl := Except.ok.inj (hv.symm.trans hv')
    obtain ⟨-, -, -, -, hreg, -, hwrite, -⟩ := store_ok hu
    have hw : memWrite s (s.reg .rsp) v = .ok u := hwrite _ rfl
    obtain ⟨-, -, -, -, hin, hout, -⟩ := memWrite_ok hw
    refine ⟨?_, hin, hout, ?_⟩
    · rw [State.advance, memRead_setReg, popped, memRead_setReg, memRead_memWrite hw]
    · rw [State.reg_advance, if_neg (by decide), popped, State.reg_setReg, if_pos rfl, hreg, if_neg (by decide)]
  case call =>
    obtain ⟨u, a, hu, ha, rfl⟩ := exec_callq_next.mp h
    obtain rfl := Except.ok.inj ((memRead_of_push hu).symm.trans ha)
    rfl

/-- R7: a decrement of `Rsp` and an increment cancel, also where they wrap. -/
theorem wrap64_sub_add (a : Word) (k : Int) : wrap64 ((wrap64 (a.toInt - k)).toInt + k) = a := by
  rw [wrap64, wrap64, BitVec.ofInt_add, BitVec.ofInt_toInt, ← BitVec.ofInt_add, Int.sub_add_cancel, BitVec.ofInt_toInt]

theorem ea_setReg {r : Reg} {m : Indirect} (s : State) (v : Word) (h : mentions r (.mem m) = false) :
    ea (s.setReg r v) m = ea s m := by
  cases m <;> simp_all [ea, mentions]

/-- An operand that does not name a register does not see it. -/
theorem valueOf_setReg {r : Reg} {o : Operand} (s : State) (v : Word) (h : mentions r o = false) :
    valueOf (s.setReg r v) o = valueOf s o := by
  cases o with
  | imm n => rfl
  | reg q =>
    have hq : q ≠ r := by simpa [mentions] using h
    simp [valueOf, hq]
  | mem m => rw [valueOf, ea_setReg s v h, memRead_setReg, valueOf]

/-- Settles O46: the push leaves the value at the stack top, the pop stores it, and `Rsp` goes down and up by 8. -/
theorem pushThenPopCopies : Obligations.PushThenPopCopies := by
  intro x y s t u hx hyrsp hyrip hpush hpop
  obtain ⟨v, w, hv, hw, rfl⟩ := exec_pushq_next.mp hpush
  obtain ⟨v', w', hv', hw', rfl⟩ := exec_popq_next hpop
  obtain ⟨-, hrsp, -⟩ := push_frame hw
  have htop : (w.advance (s.reg .rip)).reg .rsp = w.reg .rsp := by rw [State.reg_advance, if_neg (by decide)]
  rw [htop, State.advance, memRead_setReg, memRead_of_push hw] at hv'
  obtain rfl := Except.ok.inj hv'
  obtain ⟨-, -, -, -, hreg, -⟩ := store_ok hw'
  refine ⟨?_, v, ?_, ?_⟩
  · have hy : y ≠ .reg .rsp := by rintro rfl; cases hyrsp
    rw [State.reg_advance, if_neg (by decide), popped, State.reg_setReg, if_pos rfl, hreg, if_neg hy, htop, hrsp,
      wrap64_sub_add]
  · rwa [pushed, valueOf_setReg s _ hx] at hv
  · rw [State.advance, valueOf_setReg _ _ hyrip, popped, valueOf_setReg _ _ hyrsp, valueOf_of_store hw']

/-! ## Conditional jumps -/

theorem jumpIf_of_false {cc : Cond} {src : Operand} {s : State} (h : condHolds cc s.flags = false) :
    jumpIf cc src s = .ok (s.advance (s.reg .rip)) := jumpIf_ok.mpr (.inr ⟨h, rfl⟩)

theorem jumpIf_of_true {cc : Cond} {src : Operand} {s : State} (h : condHolds cc s.flags = true) :
    jumpIf cc src s = jumpTo src s := if_pos h

/-- An instruction that is the dispatch of a jump on the condition `cc` obeys the rule of its form. -/
theorem jumpRule_of_dispatch {mk : Operand → Instr} {h : BitVec 16} (cc : Cond) (hheader : ∀ src, HeaderIs (mk src) h)
    (hshape : ∀ src, shapeFault (mk src) = none)
    (hexec : ∀ src s, exec (mk src) s = dispatch (mk src) (jumpIf cc src s)) : JumpRule mk h (condHolds cc) := by
  intro src s
  rw [hexec]
  refine ⟨hheader src, fun hc => ?_, fun f hc hv => ?_, fun hc hsrc => ?_⟩
  · exact dispatch_advance (hshape src) (jumpIf_of_false hc)
  · exact dispatch_error (hshape src) ((jumpIf_of_true hc).trans (jumpTo_of_src_error hv))
  · obtain ⟨a, ha⟩ := valueOf_of_reaches hsrc
    exact ⟨a, ha, dispatch_next.mpr ⟨hshape src, (jumpIf_of_true hc).trans (jumpTo_ok.mpr ⟨a, ha, rfl⟩)⟩⟩

/-- Settles O49: each of the six is the dispatch of `jumpIf` on its row of the table of R160. -/
theorem conditionalJumps : Obligations.ConditionalJumps := by
  refine ⟨?eq, ?neq, ?lt, ?le, ?gt, ?ge⟩
  case eq => exact jumpRule_of_dispatch .eq (fun _ => assemble_header 21 0 1 _ _) (fun _ => rfl) (fun _ _ => rfl)
  case neq => exact jumpRule_of_dispatch .neq (fun _ => assemble_header 21 1 1 _ _) (fun _ => rfl) (fun _ _ => rfl)
  case lt => exact jumpRule_of_dispatch .lt (fun _ => assemble_header 21 2 1 _ _) (fun _ => rfl) (fun _ _ => rfl)
  case le => exact jumpRule_of_dispatch .le (fun _ => assemble_header 21 3 1 _ _) (fun _ => rfl) (fun _ _ => rfl)
  case gt => exact jumpRule_of_dispatch .gt (fun _ => assemble_header 21 4 1 _ _) (fun _ => rfl) (fun _ _ => rfl)
  case ge => exact jumpRule_of_dispatch .ge (fun _ => assemble_header 21 5 1 _ _) (fun _ => rfl) (fun _ _ => rfl)

/-! ## Calls -/

/-- Settles O50: the return address is written, then the operand is read in the state after the write. -/
theorem callqPushesTheReturnAddress : Obligations.CallqPushesTheReturnAddress := by
  intro src s
  refine ⟨assemble_header 18 0 1 _ _, fun f ht => ?_, fun t f ht ha => ?_, fun t ht hsrc => ?_⟩
  · exact dispatch_error (i := .callq src) rfl (bind_error.mpr (.inl ht))
  · exact dispatch_error (i := .callq src) rfl (bind_error.mpr (.inr ⟨t, ht, bind_error.mpr (.inl ha)⟩))
  · obtain ⟨a, ha⟩ := valueOf_of_reaches hsrc
    exact ⟨a, ha, exec_callq_next.mpr ⟨t, a, ht, ha, rfl⟩⟩

/-- Settles O52: the return reads the pushed address, and `Rsp` goes down and up by 8. -/
theorem callThenRetReturns : Obligations.CallThenRetReturns := by
  intro src s t u hcall hret
  obtain ⟨w, a, hw, -, rfl⟩ := exec_callq_next.mp hcall
  obtain ⟨r, hr, rfl⟩ := exec_retq_next.mp hret
  obtain ⟨-, hrsp, -⟩ := push_frame hw
  have htop : (w.setReg .rip a).reg .rsp = w.reg .rsp := by rw [State.reg_setReg, if_neg (by decide)]
  rw [htop, memRead_setReg, memRead_of_push hw] at hr
  obtain rfl := Except.ok.inj hr
  refine ⟨rfl, ?_⟩
  rw [popped, State.reg_setReg, if_pos rfl, State.reg_setReg, if_neg (by decide), htop, hrsp, wrap64_sub_add]

end Sys2Proof.Machine
end
